-- ==== Sys2Proof/Word.lean ====
section
/-! DEFINITION. The words of the core: bytes, 16-byte blocks, packets (00_scope.md R8, R9). -/
namespace Sys2Proof

/-- 8 bits, an unsigned value 0 to 255; bit 7 is the most significant (00_scope.md R8). -/
abbrev Byte := BitVec 8

/-- The 16-byte unit the cipher transforms: byte `k` stands in row `k mod 4`, column `k div 4`
(00_scope.md R9; 20_memory.md R54). -/
abbrev Block := Vector Byte 16

/-- Four bytes of the key schedule beginning at a multiple of 4 (00_scope.md R10). -/
abbrev Column := Vector Byte 4

/-- A command or response packet: its bytes in the order they are sent (30_encoding.md R71, R72). -/
abbrev Packet := List Byte

/-- `zeros(n)`: `n` bytes of `0x00` (00_scope.md R8). -/
def zeros (n : Nat) : List Byte := List.replicate n 0

end Sys2Proof
end

