-- ==== Sys2Proof/Config.lean ====
section
/-! DEFINITION. The parameters of the core (00_scope.md R6, R7) at the spec's default values
(DESIGN CHOICE, log entry 14). -/
namespace Sys2Proof.Config

/-- `ADDR_BITS`: width of a buffer address (00_scope.md R7, D13). -/
def addrBits : Nat := 32

/-- `LEN_BITS`: width of a buffer length (00_scope.md R7, D13). -/
def lenBits : Nat := 32

/-- `2^ADDR_BITS`: how many addresses the buffer memory has (20_memory.md R50). -/
def addrSpace : Nat := 2 ^ addrBits

/-- The first number that a length field cannot hold. -/
def lenSpace : Nat := 2 ^ lenBits

/-- The greatest length whose rounded-up value a length field can hold (44_buffer_api.md R207). -/
def maxLen : Nat := 2 ^ lenBits - 16

/-- `KEY_STORE_BYTES`: physical size of the key store (00_scope.md R7, D25). -/
def keyStoreBytes : Nat := 32

/-- `SCHED_STORE_BYTES`: physical size of the schedule store (00_scope.md R7, D25). -/
def schedStoreBytes : Nat := 240

/-- `PAD_MODE`: how ENC fills the trailing partial block. The spec has a rule for one value only
(44_buffer_api.md R204; 93_implementation_defined.md U5). -/
inductive PadMode where
  | fullZero
  deriving DecidableEq, Repr

/-- `PAD_MODE = full_zero` (00_scope.md R7, D6). -/
def padMode : PadMode := .fullZero

end Sys2Proof.Config
end

