-- ==== Sys2Proof/Syntax.lean ====
section
/-! DEFINITION. The seven commands of the core as syntax, one constructor per row of
spec/opcode_table.json (30_encoding.md R70), and the responses to them (R78). -/
namespace Sys2Proof

/-- The commands. Addresses and lengths are natural numbers, as the rules compute with them
(00_scope.md R11); `WellFormed` says which of them a packet can carry. -/
inductive Instr where
  /-- INIT `klen [, key]`: construct the engine; an empty `key` is the form without a key
  (40_key_management.md R101, R102). -/
  | init (klen : Byte) (key : List Byte)
  /-- SETKEY `klen, key`: replace the key (40_key_management.md R103). -/
  | setKey (klen : Byte) (key : List Byte)
  /-- ENCBLK `blk` (42_block_ops.md R140). -/
  | encBlk (blk : Block)
  /-- DECBLK `blk` (42_block_ops.md R143). -/
  | decBlk (blk : Block)
  /-- ENCLEN `n` (44_buffer_api.md R201). -/
  | encLen (n : Nat)
  /-- ENC `src, len, dst` (44_buffer_api.md R203). -/
  | enc (src len dst : Nat)
  /-- DEC `src, len, dst` (44_buffer_api.md R205). -/
  | dec (src len dst : Nat)
  deriving DecidableEq, Repr

/-- The error conditions: the closed list of 60_exceptions.md R220, less `OK`. -/
inductive Condition where
  /-- Raised by DEC only (R221). -/
  | invalidInput
  /-- Raised by INIT and SETKEY only (R222). -/
  | unsupportedKeyLength
  /-- Raised by ENCBLK, DECBLK, ENC and DEC (R223). -/
  | notReady
  /-- Raised by the decoder (R224). -/
  | illegalCommand
  deriving DecidableEq, Repr

/-- What a command answers: `OK` with its payload, or one condition (30_encoding.md R78). -/
inductive Response where
  | ok (payload : List Byte)
  | condition (c : Condition)
  deriving DecidableEq, Repr

end Sys2Proof
end

