-- ==== Sys2Proof/WellFormed.lean ====
section
/-! DEFINITION. Which commands a packet can carry: every numeric operand fits its 32-bit field
(30_encoding.md R73, R76, R77). Byte-string operands and `klen` fit by their types, and any number
of key bytes is well-formed (R74, R82). -/
namespace Sys2Proof

/-- The check, one clause per command. -/
def Instr.wellFormed : Instr → Bool
  | .init _ _ => true
  | .setKey _ _ => true
  | .encBlk _ => true
  | .decBlk _ => true
  | .encLen n => decide (n < Config.lenSpace)
  | .enc src len dst =>
    decide (src < Config.addrSpace) && decide (len < Config.lenSpace) && decide (dst < Config.addrSpace)
  | .dec src len dst =>
    decide (src < Config.addrSpace) && decide (len < Config.lenSpace) && decide (dst < Config.addrSpace)

/-- A command that some packet carries. -/
abbrev WellFormed (i : Instr) : Prop := i.wellFormed = true

end Sys2Proof
end

