-- ==== Sys2Proof/Decode.lean ====
section
/-! DEFINITION. The decoder (total, rejecting by name) and the encoder of command packets
(30_encoding.md R70 to R85), and the byte-order helpers both use. -/
namespace Sys2Proof

/-! ## Byte order -/

/-- The unsigned number a byte string holds, least significant byte first (30_encoding.md R73). -/
def leNat : List Byte → Nat
  | [] => 0
  | b :: bs => b.toNat + 256 * leNat bs

/-- The `k` low bytes of a number, least significant byte first (30_encoding.md R73). -/
def leBytes : Nat → Nat → List Byte
  | 0, _ => []
  | k + 1, n => BitVec.ofNat 8 n :: leBytes k (n / 256)

/-- A 16-byte string as a block: byte `k` of the string is byte `k` of the block
(20_memory.md R54). -/
def blockOfBytes (bs : List Byte) : Block := Vector.ofFn fun k => bs.getD k.val 0

/-- The `n`-byte field of a packet that starts at byte offset `o` (30_encoding.md R72). -/
def field (p : Packet) (o n : Nat) : List Byte := (p.drop o).take n

/-! ## Opcode map and formats -/

/-- The assigned opcodes (30_encoding.md R70). -/
inductive Opcode where
  | init | setKey | encBlk | decBlk | encLen | enc | dec
  deriving DecidableEq, Repr

/-- The formats of command packets (30_encoding.md R74 to R77): key, block, length, memory. -/
inductive Format where
  | k | b | l | m
  deriving DecidableEq, Repr

/-- The opcode map, compared whole (30_encoding.md R79). -/
def opcodeMap : List (Byte × Opcode) :=
  [(0x01, .init), (0x02, .setKey), (0x10, .encBlk), (0x11, .decBlk),
   (0x20, .encLen), (0x21, .enc), (0x22, .dec)]

/-- The command an opcode byte selects; `none` for the 249 reserved values (30_encoding.md R79). -/
def opcodeOf (op : Byte) : Option Opcode :=
  (opcodeMap.find? fun row => row.1 == op).map (·.2)

/-- The format of each command (30_encoding.md R70). -/
def Opcode.format : Opcode → Format
  | .init => .k
  | .setKey => .k
  | .encBlk => .b
  | .decBlk => .b
  | .encLen => .l
  | .enc => .m
  | .dec => .m

/-- The shortest packet of a format (30_encoding.md R74 to R77). -/
def Format.minLength : Format → Nat
  | .k => 2
  | .b => 17
  | .l => 5
  | .m => 13

/-- Whether a packet of `n` bytes has the length its format gives: format K any length from 2 up,
the others exactly one length (30_encoding.md R74 to R77, R80). -/
def Format.fits (f : Format) (n : Nat) : Bool :=
  match f with
  | .k => decide (f.minLength ≤ n)
  | .b => n == f.minLength
  | .l => n == f.minLength
  | .m => n == f.minLength

/-! ## The decoder -/

/-- Why a packet is no command; every one of these is `IllegalCommand` (60_exceptions.md R224). -/
inductive IllegalPacket where
  /-- The packet has no byte (30_encoding.md R80). -/
  | emptyPacket
  /-- The opcode byte is one of the reserved values (30_encoding.md R79). -/
  | reservedOpcode (op : Byte)
  /-- The packet's length is not one that its opcode's format gives (30_encoding.md R80). -/
  | wrongLength (op : Opcode) (length : Nat)
  deriving DecidableEq, Repr

/-- What the decoder makes of a packet. -/
inductive Decoded where
  | instr (i : Instr)
  | illegal (why : IllegalPacket)
  deriving DecidableEq, Repr

/-- The operands of a packet whose opcode and length are right, at the byte offsets of
30_encoding.md R74 to R77. -/
def operands (op : Opcode) (p : Packet) : Instr :=
  match op with
  | .init => .init (p.getD 1 0) (p.drop 2)
  | .setKey => .setKey (p.getD 1 0) (p.drop 2)
  | .encBlk => .encBlk (blockOfBytes (field p 1 16))
  | .decBlk => .decBlk (blockOfBytes (field p 1 16))
  | .encLen => .encLen (leNat (field p 1 4))
  | .enc => .enc (leNat (field p 1 4)) (leNat (field p 5 4)) (leNat (field p 9 4))
  | .dec => .dec (leNat (field p 1 4)) (leNat (field p 5 4)) (leNat (field p 9 4))

/-- The decoder: every byte sequence is one of the seven commands with its operands, or illegal
(30_encoding.md R80). -/
def decode (p : Packet) : Decoded :=
  match p with
  | [] => .illegal .emptyPacket
  | op :: _ =>
    match opcodeOf op with
    | none => .illegal (.reservedOpcode op)
    | some o => if o.format.fits p.length then .instr (operands o p) else .illegal (.wrongLength o p.length)

/-! ## The encoder -/

/-- The packet of a command (30_encoding.md R84). -/
def encode : Instr → Packet
  | .init klen key => 0x01 :: klen :: key
  | .setKey klen key => 0x02 :: klen :: key
  | .encBlk blk => 0x10 :: blk.toList
  | .decBlk blk => 0x11 :: blk.toList
  | .encLen n => 0x20 :: leBytes 4 n
  | .enc src len dst => 0x21 :: (leBytes 4 src ++ leBytes 4 len ++ leBytes 4 dst)
  | .dec src len dst => 0x22 :: (leBytes 4 src ++ leBytes 4 len ++ leBytes 4 dst)

/-! ## The opcode table's numbering of bits -/

/-- The packet that the bits `w` of an opcode-table row stand for, the first packet byte in bits
7..0: `nbits` bits of `w`, then zero bytes up to the shortest length of the opcode's format
(log entry 18). -/
def tablePacket (nbits w : Nat) : Packet :=
  let shortest := ((opcodeOf (BitVec.ofNat 8 w)).map fun o => o.format.minLength).getD 1
  leBytes (max (nbits / 8) shortest) (w % 2 ^ nbits)

/-- The command the decoder reads from an instruction numbered as the opcode table numbers it. -/
def decodeTableWord (nbits w : Nat) : Option Instr :=
  match decode (tablePacket nbits w) with
  | .instr i => some i
  | .illegal _ => none

end Sys2Proof
end

