-- ==== Sys2Proof/Machine/State.lean ====
section
/-! DEFINITION. The state of the machine as plain data: one engine instance (10_state.md R20 to
R38), the host's buffer memory (20_memory.md R50), and what the host sends and receives
(30_encoding.md R71); the reasons a step can stop; the state after reset. -/
namespace Sys2Proof.Machine

/-- The buffer memory (20_memory.md R50): the bytes that differ from an unwritten one, addresses
strictly rising (log entry 8). -/
abbrev Memory := List Host.Cell

/-- The block state register file and its scratch array. -/
structure Datapath where
  /-- `S`, 16 registers of 8 bits (10_state.md R20 to R22). -/
  s : Block
  /-- `T`, the row shift's scratch array in row-major order (10_state.md R23). -/
  t : Block
  deriving DecidableEq, Repr

/-- A range of buffer-memory addresses `[base, base + size)` (20_memory.md R57). -/
structure Span where
  base : Nat
  size : Nat
  deriving DecidableEq, Repr

/-- What the host can do to the core (70_reset_and_hazards.md R270); log entries 1, 3 and 4. -/
inductive HostEvent where
  /-- Send one command packet (30_encoding.md R71). -/
  | command (p : Packet)
  /-- Reset the idle core (70_reset_and_hazards.md R260). -/
  | reset
  /-- Send a command packet and reset the core while the command runs (70_reset_and_hazards.md
  R261); `fill` is what the output buffer then holds from its first byte on, as far as it goes. -/
  | commandCutByReset (p : Packet) (fill : List Byte)
  /-- Write bytes into the host's own memory between commands (20_memory.md R64). -/
  | hostWrite (addr : Nat) (bytes : List Byte)
  deriving DecidableEq, Repr

/-- The state. -/
structure State where
  /-- `S` and `T`. -/
  dp : Datapath
  /-- `KEY`: `KLEN` bytes once a key is set, the zeroed 32-byte store before (10_state.md R24,
  R37; log entry 7). -/
  key : List Byte
  /-- `KLEN`: the key length in bytes, 0 while no key is set (10_state.md R25). -/
  klen : Byte
  /-- `W`: the expanded key schedule (10_state.md R26; log entry 7). -/
  w : List Byte
  /-- `RCON`: the round constant (10_state.md R27). -/
  rcon : Byte
  /-- `READY`: `KEY`, `KLEN` and `W` hold a key and its complete schedule (10_state.md R28). -/
  ready : Bool
  /-- The host's buffer memory (10_state.md R33). -/
  mem : Memory
  /-- What the host does next, oldest first (log entry 1). -/
  inbox : List HostEvent
  /-- The responses returned so far, oldest first (30_encoding.md R71; log entry 1). -/
  outbox : List Packet
  /-- The address ranges whose accesses, reads and writes alike, the platform does not accept
  (20_memory.md R61; log entry 12). -/
  rejected : List Span
  deriving DecidableEq, Repr

/-- The reasons the machine is stuck. -/
inductive Fault where
  /-- Raised by ENC and DEC when an access inside their two ranges meets an address the platform
  does not accept: "A run in which the memory does not admit such an access has no step (stuck)"
  (20_memory.md R61; 93_implementation_defined.md U4). Safe: the machine stops. -/
  | accessRejected
  deriving DecidableEq, Repr

/-- The situations the spec gives no outcome. -/
inductive Refusal where
  /-- Raised by no arm: every command has its meaning. Safe. -/
  | notModelled (mnemonic : String)
  /-- Raised by ENCLEN and ENC when the rounded length does not fit 32 bits (44_buffer_api.md
  R207; U3). Safe: the machine stops. -/
  | lengthOverflow
  /-- Raised by ENC and DEC when a range passes the top of the address space (20_memory.md R61;
  U4), and by a host write to addresses that do not exist. Safe: the machine stops. -/
  | addressOverflow
  /-- Raised by ENC and DEC when the ranges overlap and do not start at the same address
  (20_memory.md R60; U2). Safe: the machine stops. -/
  | partialOverlap
  deriving DecidableEq, Repr

/-- The outcome of a step or of a command. -/
abbrev Result := Host.Outcome State Fault Refusal

/-- What `S` and `T` hold after reset: the spec leaves them unspecified (DESIGN CHOICE, log
entry 5). -/
def Datapath.reset : Datapath :=
  ⟨Vector.replicate 16 0, Vector.replicate 16 0⟩

/-- The state after reset (10_state.md R37). `READY`, `KLEN` and `KEY` are the spec's; `W`, `S`,
`T`, `RCON` are chosen (DESIGN CHOICE, log entry 5); the host has done nothing yet. -/
def State.reset : State where
  dp := Datapath.reset
  key := zeros Config.keyStoreBytes
  klen := 0
  w := zeros Config.schedStoreBytes
  rcon := 0x01
  ready := false
  mem := []
  inbox := []
  outbox := []
  rejected := []

end Sys2Proof.Machine
end

