-- ==== Sys2Proof/Machine/Flags.lean ====
section
/-! DEFINITION. The one flag of the core, `READY` (10_state.md R28, R29). There are no condition
codes and no sticky error flag. -/
namespace Sys2Proof.Machine

/-- `READY <- 1`, at the end of a successful INIT or SETKEY (10_state.md R28). -/
def State.setReady (s : State) : State := { s with ready := true }

/-- `READY <- 0`, by reset and at the start of INIT (10_state.md R28). -/
def State.clearReady (s : State) : State := { s with ready := false }

end Sys2Proof.Machine
end

