-- ==== Sys2Proof/Machine/Ops.lean ====
section
/-! DEFINITION. The named operations over memory, the response port, error conditions and reset. -/
namespace Sys2Proof.Machine

/-! ## Buffer memory (20_memory.md R50 to R54) -/

/-- What a byte of memory that nothing has written reads as (DESIGN CHOICE, log entry 8). -/
def Memory.unwritten : Byte := 0

/-- The byte at an address (20_memory.md R51). -/
def Memory.read (m : Memory) (a : Nat) : Byte :=
  match m with
  | [] => Memory.unwritten
  | (x, v) :: m => if x = a then v else Memory.read m a

/-- `M[a] <- v` (20_memory.md R52); a byte equal to an unwritten one is not listed. -/
def Memory.write (m : Memory) (a : Nat) (v : Byte) : Memory :=
  match m with
  | [] => if v = Memory.unwritten then [] else [(a, v)]
  | (x, b) :: m =>
    if a < x then
      if v = Memory.unwritten then (x, b) :: m else (a, v) :: (x, b) :: m
    else if a = x then
      if v = Memory.unwritten then m else (a, v) :: m
    else (x, b) :: Memory.write m a v

/-- `MemRead(addr, n)`: `n` bytes, lowest address first (20_memory.md R51). -/
def memRead (m : Memory) (addr n : Nat) : List Byte :=
  (List.range n).map fun k => m.read (addr + k)

/-- `MemWrite(addr, n, v)` with `n` the length of `v`: `v[0]` goes to `addr`
(20_memory.md R52). -/
def memWrite (m : Memory) (addr : Nat) (v : List Byte) : Memory :=
  match v with
  | [] => m
  | b :: bs => memWrite (m.write addr b) (addr + 1) bs

/-- Addresses strictly rising. -/
def Memory.rising (m : Memory) : Bool :=
  match m with
  | [] => true
  | c :: rest => (rest.all fun d => decide (c.1 < d.1)) && Memory.rising rest

/-- The canonical form: addresses strictly rising, and no entry equal to an unwritten byte. -/
def Memory.wf (m : Memory) : Bool :=
  m.rising && m.all fun c => c.2 != Memory.unwritten

/-- Every listed address exists (20_memory.md R50). -/
def Memory.inSpace (m : Memory) : Bool :=
  m.all fun c => decide (c.1 < Config.addrSpace)

/-! ## Responses and conditions (30_encoding.md R78; 60_exceptions.md R220 to R226) -/

/-- The status byte of a condition (30_encoding.md R78). -/
def Condition.code : Condition → Byte
  | .invalidInput => 0x01
  | .unsupportedKeyLength => 0x02
  | .notReady => 0x03
  | .illegalCommand => 0x04

/-- The response packet: the status byte, and after `OK` the payload (30_encoding.md R78). -/
def Response.encode : Response → Packet
  | .ok payload => 0x00 :: payload
  | .condition c => [Condition.code c]

/-- `respond`: end the command and return its response packet (00_scope.md R11). -/
def State.respond (s : State) (r : Response) : State :=
  { s with outbox := s.outbox ++ [Response.encode r] }

/-- Raising a condition: the one exception entry of the core. Nothing is saved, vectored or masked;
the command ends with the status byte alone and the host goes on (60_exceptions.md R225, R226).
There is no return: nothing was entered (R229). -/
def raise (c : Condition) (s : State) : Result := .next (s.respond (.condition c))

/-! ## Discarding the key, and reset -/

/-- `READY <- 0; KLEN <- 0; KEY store <- zeros(32)` (40_key_management.md R101 step 1). -/
def State.discardKey (s : State) : State :=
  { s.clearReady with klen := 0, key := zeros Config.keyStoreBytes }

/-- The reset event's effect on the core: every piece of its state at its reset value; the memory
and the packets are the host's and stay (70_reset_and_hazards.md R260; 10_state.md R38). -/
def State.resetCore (s : State) : State :=
  { s.discardKey with dp := Datapath.reset, w := State.reset.w, rcon := State.reset.rcon }

end Sys2Proof.Machine
end

