-- ==== Sys2Proof/Machine/Operands.lean ====
section
/-! DEFINITION. The operand forms and operand checks of the commands: key operands
(40_key_management.md R100 to R103), lengths (44_buffer_api.md R200, R207) and buffer ranges
(20_memory.md R57, R60, R61). -/
namespace Sys2Proof.Machine

/-! ## Key operands -/

/-- `klen` in {16, 24, 32} (30_encoding.md R81). -/
def legalKeyLength (klen : Byte) : Bool := klen == 16 || klen == 24 || klen == 32

/-- `Nr = KLEN/4 + 6` (00_scope.md R6). -/
def roundCount (klen : Byte) : Nat := klen.toNat / 4 + 6

/-- The round count in force (10_state.md R25). -/
def State.nr (s : State) : Nat := roundCount s.klen

/-- INIT takes no key bytes or exactly `klen` of them (40_key_management.md R101 step 3). -/
def initKeyFits (klen : Byte) (key : List Byte) : Bool :=
  key.length == 0 || key.length == klen.toNat

/-- SETKEY takes exactly `klen` key bytes (40_key_management.md R103 step 2). -/
def setKeyFits (klen : Byte) (key : List Byte) : Bool := key.length == klen.toNat

/-- The key INIT stores: the operand, or with no operand the first `klen` bytes of the key store
(40_key_management.md R101 step 5, R102). -/
def initKey (klen : Byte) (key store : List Byte) : List Byte :=
  if key.length = klen.toNat then key else store.take klen.toNat

/-! ## Lengths -/

/-- `encLen(n)`: `n` rounded up to the next multiple of 16 (44_buffer_api.md R200). -/
def encryptedLength (n : Nat) : Nat := 16 * ((n + 15) / 16)

/-- The trailing partial block of ENC, filled up to 16 bytes (44_buffer_api.md R204). -/
def padTail (mode : Config.PadMode) (tail : List Byte) : List Byte :=
  match mode with
  | .fullZero => tail ++ zeros (16 - tail.length)

/-! ## Buffer ranges -/

/-- The address lies in the range. -/
def Span.contains (x : Span) (a : Nat) : Bool := decide (x.base ≤ a) && decide (a < x.base + x.size)

/-- The ranges share an address; an empty range shares none (20_memory.md R60; log entry 13). -/
def Span.meets (x y : Span) : Bool :=
  decide (0 < x.size) && decide (0 < y.size) &&
    decide (x.base < y.base + y.size) && decide (y.base < x.base + x.size)

/-- The range does not pass the top of the address space (20_memory.md R61). -/
def Span.fits (x : Span) : Bool := decide (x.base + x.size ≤ Config.addrSpace)

/-- What `src` and `len` give ENC and DEC to read (20_memory.md R57). -/
def inputSpan (src len : Nat) : Span := ⟨src, len⟩

/-- What `dst` and `len` give ENC to write (20_memory.md R57). -/
def encOutputSpan (dst len : Nat) : Span := ⟨dst, encryptedLength len⟩

/-- What `dst` and `len` give DEC to write (20_memory.md R57). -/
def decOutputSpan (dst len : Nat) : Span := ⟨dst, len⟩

/-- The ranges are disjoint, or start at the same address (20_memory.md R60). -/
def aliasAdmitted (input output : Span) : Bool :=
  !input.meets output || input.base == output.base

/-- The platform does not accept some access of the range, be it a read or a write (20_memory.md R61;
DESIGN CHOICE, log entry 12). -/
def State.rejects (s : State) (x : Span) : Bool := s.rejected.any fun hole => hole.meets x

/-- A command on two ranges: refused, whatever else holds, if one passes the top of the address space
(20_memory.md R61; 60_exceptions.md R228; log entry 11). -/
def whenInSpace (input output : Span) (command : Result) : Result :=
  if !(input.fits && output.fits) then .refused .addressOverflow else command

/-- A command that reads the one range and writes the other: refused if they partly overlap
(20_memory.md R57, R60; log entry 11). -/
def whenAliasAdmitted (input output : Span) (command : Result) : Result :=
  if !aliasAdmitted input output then .refused .partialOverlap else command

/-- Both refusals, the addresses first (log entry 11). -/
def admitRanges (input output : Span) (command : Result) : Result :=
  whenInSpace input output (whenAliasAdmitted input output command)

/-- A command that needs a key: `NotReady` while `READY` = 0 (60_exceptions.md R223). -/
def whenReady (s : State) (command : Result) : Result :=
  if s.ready then command else raise .notReady s

/-- A transfer on two ranges: stuck if the platform does not accept it (20_memory.md R61). That an
address is rejected for reads and writes alike is the model's choice (DESIGN CHOICE, log entry 12). -/
def whenAccepted (s : State) (input output : Span) (command : Result) : Result :=
  if s.rejects input || s.rejects output then .fault .accessRejected else command

end Sys2Proof.Machine
end

