-- ==== Sys2Proof/Machine/Round.lean ====
section
/-! DEFINITION. The round primitives (43_round_primitives.md R160 to R173, R178): as functions on
blocks, and the row shifts also as the datapath does them, through the scratch array `T`. -/
namespace Sys2Proof.Machine

/-! ## Byte substitution -/

/-- `SubBytes` (43_round_primitives.md R172). -/
def subBytes (s : Block) : Block := Vector.ofFn fun k => sbox s[k]

/-- `InvSubBytes` (43_round_primitives.md R173). -/
def invSubBytes (s : Block) : Block := Vector.ofFn fun k => invSbox s[k]

/-! ## Row shift, net effect -/

/-- `ShiftRows`: `S'[r + 4c] = S[r + 4((c + r) mod 4)]` (43_round_primitives.md R161). -/
def shiftRows (s : Block) : Block :=
  Vector.ofFn fun k => s[k.val % 4 + 4 * ((k.val / 4 + k.val % 4) % 4)]

/-- `InvShiftRows`: `S'[r + 4c] = S[r + 4((c - r) mod 4)]` (43_round_primitives.md R162). -/
def invShiftRows (s : Block) : Block :=
  Vector.ofFn fun k => s[k.val % 4 + 4 * ((k.val / 4 + 4 - k.val % 4) % 4)]

/-! ## Row shift, through the scratch array -/

/-- The transposition `T[4r + c] <- S[r + 4c]`; the same map takes `T` back to `S`
(43_round_primitives.md R160). -/
def transpose (s : Block) : Block :=
  Vector.ofFn fun k => s[k.val / 4 + 4 * (k.val % 4)]

/-- The left rotation of each row of a row-major array by its offset
(43_round_primitives.md R160, R161). -/
def rotateRows (offset : List Nat) (t : Block) : Block :=
  Vector.ofFn fun k => t[4 * (k.val / 4) + (k.val % 4 + offset.getD (k.val / 4) 0) % 4]

/-- "Encrypt uses offsets {0,1,2,3} for rows {0,1,2,3}" (43_round_primitives.md R160). -/
def encryptOffsets : List Nat := [0, 1, 2, 3]

/-- "decrypt uses the complementary offsets {0,3,2,1}" (43_round_primitives.md R160). -/
def decryptOffsets : List Nat := [0, 3, 2, 1]

/-- A row shift as the datapath does it: transpose into `T`, rotate the rows there, transpose back
(43_round_primitives.md R160; what `T` then holds: log entry 10). -/
def Datapath.rowShift (offset : List Nat) (d : Datapath) : Datapath :=
  let t := rotateRows offset (transpose d.s)
  ⟨transpose t, t⟩

/-! ## Column mix -/

/-- The matrix of `MixColumns` (43_round_primitives.md R165). -/
def mdsMatrix : Vector (Vector Byte 4) 4 :=
  #v[#v[0x02, 0x03, 0x01, 0x01],
     #v[0x01, 0x02, 0x03, 0x01],
     #v[0x01, 0x01, 0x02, 0x03],
     #v[0x03, 0x01, 0x01, 0x02]]

/-- The matrix of `InvMixColumns` (43_round_primitives.md R166). -/
def invMdsMatrix : Vector (Vector Byte 4) 4 :=
  #v[#v[0x0e, 0x0b, 0x0d, 0x09],
     #v[0x09, 0x0e, 0x0b, 0x0d],
     #v[0x0d, 0x09, 0x0e, 0x0b],
     #v[0x0b, 0x0d, 0x09, 0x0e]]

/-- The product of a matrix with each column of a block, the column on the right: products `gmul`,
sums XOR (43_round_primitives.md R165, R166). -/
def matrixMul (m : Vector (Vector Byte 4) 4) (s : Block) : Block :=
  Vector.ofFn fun k =>
    let row := m[k.val % 4]
    gmul s[4 * (k.val / 4)] row[0] ^^^ gmul s[4 * (k.val / 4) + 1] row[1] ^^^
      gmul s[4 * (k.val / 4) + 2] row[2] ^^^ gmul s[4 * (k.val / 4) + 3] row[3]

/-- `MixColumns`: byte `j` of a column becomes `dbl(c_j XOR c_{j+1})` XORed with `c_{j+1}`,
`c_{j+2}`, `c_{j+3}`, indices modulo 4 (43_round_primitives.md R164). -/
def mixColumns (s : Block) : Block :=
  Vector.ofFn fun k =>
    let c0 := s[4 * (k.val / 4) + k.val % 4]
    let c1 := s[4 * (k.val / 4) + (k.val % 4 + 1) % 4]
    let c2 := s[4 * (k.val / 4) + (k.val % 4 + 2) % 4]
    let c3 := s[4 * (k.val / 4) + (k.val % 4 + 3) % 4]
    dbl (c0 ^^^ c1) ^^^ c1 ^^^ c2 ^^^ c3

/-- `InvMixColumns`: "The normative definition is the matrix product"
(43_round_primitives.md R166). -/
def invMixColumns (s : Block) : Block := matrixMul invMdsMatrix s

/-- The doublings-and-XORs form of `InvMixColumns` that the spec offers
(43_round_primitives.md R167): for byte `j`, `x XOR y XOR dbl(c_j XOR c_{j+1}) XOR t XOR c_j`, where
`y` stands for the spec's `y` when `j` is even and for its `z` when `j` is odd. -/
def invMixColumnsByDoubling (s : Block) : Block :=
  Vector.ofFn fun k =>
    let c0 := s[4 * (k.val / 4) + k.val % 4]
    let c1 := s[4 * (k.val / 4) + (k.val % 4 + 1) % 4]
    let c2 := s[4 * (k.val / 4) + (k.val % 4 + 2) % 4]
    let c3 := s[4 * (k.val / 4) + (k.val % 4 + 3) % 4]
    let t := c0 ^^^ c1 ^^^ c2 ^^^ c3
    let x := dbl (dbl (dbl t))
    let y := dbl (dbl (c0 ^^^ c2))
    x ^^^ y ^^^ dbl (c0 ^^^ c1) ^^^ t ^^^ c0

/-! ## Round-key addition -/

/-- `AddRoundKey(S, i)`: `S'[k] = S[k] XOR W[16i + k]` (43_round_primitives.md R178). Past the end of
`W`, which no reachable state does, a byte counts as zero (log entry 17). -/
def addRoundKey (w : List Byte) (i : Nat) (s : Block) : Block :=
  Vector.ofFn fun k => s[k] ^^^ w.getD (16 * i + k.val) 0

end Sys2Proof.Machine
end

