-- ==== Sys2Proof/Machine/Block.lean ====
section
/-! DEFINITION. Single-block encryption and decryption (42_block_ops.md): the spec's functions
`EncryptBlock` and `DecryptBlock`, the sequencers that run them on the datapath, and the commands
ENCBLK and DECBLK. -/
namespace Sys2Proof.Machine

/-! ## The functions -/

/-- A full round of encryption (42_block_ops.md R141 step 2). -/
def encryptRound (w : List Byte) (s : Block) (i : Nat) : Block :=
  addRoundKey w i (mixColumns (shiftRows (subBytes s)))

/-- `EncryptBlock(W, Nr, blk)` (42_block_ops.md R141). -/
def encryptBlock (w : List Byte) (nr : Nat) (blk : Block) : Block :=
  let s := (List.range' 1 (nr - 1)).foldl (encryptRound w) (addRoundKey w 0 blk)
  addRoundKey w nr (shiftRows (subBytes s))

/-- A full round of decryption (42_block_ops.md R144 step 2). -/
def decryptRound (w : List Byte) (s : Block) (i : Nat) : Block :=
  invSubBytes (invShiftRows (invMixColumns (addRoundKey w i s)))

/-- `DecryptBlock(W, Nr, blk)`: the rounds from `Nr - 1` down to 1 (42_block_ops.md R144). -/
def decryptBlock (w : List Byte) (nr : Nat) (blk : Block) : Block :=
  let s := invSubBytes (invShiftRows (addRoundKey w nr blk))
  addRoundKey w 0 ((List.range' 1 (nr - 1)).reverse.foldl (decryptRound w) s)

/-! ## The sequencers -/

/-- Pass `S` through a primitive that does not touch `T`. -/
def Datapath.onS (f : Block → Block) (d : Datapath) : Datapath := { d with s := f d.s }

/-- A full round of encryption on the datapath (42_block_ops.md R141 step 2, R147). -/
def Datapath.encryptRound (w : List Byte) (d : Datapath) (i : Nat) : Datapath :=
  (((d.onS subBytes).rowShift encryptOffsets).onS mixColumns).onS (addRoundKey w i)

/-- The forward sequencer: load `S`, run the rounds, leave the result in `S`
(42_block_ops.md R141). -/
def Datapath.encrypt (w : List Byte) (nr : Nat) (blk : Block) (d : Datapath) : Datapath :=
  let d := Datapath.onS (addRoundKey w 0) { d with s := blk }
  let d := (List.range' 1 (nr - 1)).foldl (Datapath.encryptRound w) d
  ((d.onS subBytes).rowShift encryptOffsets).onS (addRoundKey w nr)

/-- A full round of decryption on the datapath (42_block_ops.md R144 step 2). -/
def Datapath.decryptRound (w : List Byte) (d : Datapath) (i : Nat) : Datapath :=
  (((d.onS (addRoundKey w i)).onS invMixColumns).rowShift decryptOffsets).onS invSubBytes

/-- The inverse sequencer (42_block_ops.md R144). -/
def Datapath.decrypt (w : List Byte) (nr : Nat) (blk : Block) (d : Datapath) : Datapath :=
  let d := Datapath.onS (addRoundKey w nr) { d with s := blk }
  let d := (d.rowShift decryptOffsets).onS invSubBytes
  let d := (List.range' 1 (nr - 1)).reverse.foldl (Datapath.decryptRound w) d
  d.onS (addRoundKey w 0)

/-! ## The commands -/

/-- Run the forward sequencer on a block (42_block_ops.md R140 step 2). -/
def State.encryptOne (s : State) (blk : Block) : State := { s with dp := s.dp.encrypt s.w s.nr blk }

/-- Run the inverse sequencer on a block (42_block_ops.md R143 step 2). -/
def State.decryptOne (s : State) (blk : Block) : State := { s with dp := s.dp.decrypt s.w s.nr blk }

/-- `respond(OK, out)` with the block that stands in `S` (42_block_ops.md R140, R143 step 3). -/
def State.respondBlock (s : State) : State := s.respond (.ok s.dp.s.toList)

/-- ENCBLK (42_block_ops.md R140). -/
def execEncBlk (blk : Block) (s : State) : Result :=
  whenReady s (.next (s.encryptOne blk).respondBlock)

/-- DECBLK (42_block_ops.md R143). -/
def execDecBlk (blk : Block) (s : State) : Result :=
  whenReady s (.next (s.decryptOne blk).respondBlock)

end Sys2Proof.Machine
end

