-- ==== Sys2Proof/Machine/Buffer.lean ====
section
/-! DEFINITION. The buffer-level commands ENCLEN, ENC and DEC (44_buffer_api.md). -/
namespace Sys2Proof.Machine

/-! ## What ENC computes, as a function on byte sequences -/

/-- Block `b` of a buffer, with what is missing of it filled in (44_buffer_api.md R202). -/
def paddedBlock (m : List Byte) (b : Nat) : Block :=
  blockOfBytes (padTail Config.padMode ((m.drop (16 * b)).take 16))

/-- `EncryptBuffer(W, Nr, m)` (44_buffer_api.md R202). -/
def encryptBuffer (w : List Byte) (nr : Nat) (m : List Byte) : List Byte :=
  (List.range ((m.length + 15) / 16)).flatMap fun b => (encryptBlock w nr (paddedBlock m b)).toList

/-! ## The buffer sequencer -/

/-- Write the block in `S` to 16 bytes of memory (44_buffer_api.md R203, R205). -/
def State.storeBlock (s : State) (addr : Nat) : State :=
  { s with mem := memWrite s.mem addr s.dp.s.toList }

/-- One turn of ENC's loop: block `b` (44_buffer_api.md R203 step 4). -/
def encStep (src dst : Nat) (s : State) (b : Nat) : State :=
  (s.encryptOne (blockOfBytes (memRead s.mem (src + 16 * b) 16))).storeBlock (dst + 16 * b)

/-- ENC's trailing partial block of `r` bytes after `nfull` whole ones (44_buffer_api.md R203
step 5, R204). -/
def encTail (src dst nfull r : Nat) (s : State) : State :=
  (s.encryptOne (blockOfBytes (padTail Config.padMode (memRead s.mem (src + 16 * nfull) r)))).storeBlock
    (dst + 16 * nfull)

/-- ENC's work on memory (44_buffer_api.md R203 steps 3 to 5). -/
def encRun (src len dst : Nat) (s : State) : State :=
  let s := (List.range (len / 16)).foldl (encStep src dst) s
  if len % 16 = 0 then s else encTail src dst (len / 16) (len % 16) s

/-- One turn of DEC's loop: block `b` (44_buffer_api.md R205 step 4). -/
def decStep (src dst : Nat) (s : State) (b : Nat) : State :=
  (s.decryptOne (blockOfBytes (memRead s.mem (src + 16 * b) 16))).storeBlock (dst + 16 * b)

/-- DEC's work on memory (44_buffer_api.md R205 step 4). -/
def decRun (src len dst : Nat) (s : State) : State :=
  (List.range (len / 16)).foldl (decStep src dst) s

/-! ## The commands -/

/-- ENCLEN: no state is read, `READY` included (44_buffer_api.md R201, R207). -/
def execEncLen (n : Nat) (s : State) : Result :=
  if Config.maxLen < n then .refused .lengthOverflow
  else .next (s.respond (.ok (leBytes 4 (encryptedLength n))))

/-- ENC (44_buffer_api.md R203, R207). -/
def execEnc (src len dst : Nat) (s : State) : Result :=
  if Config.maxLen < len then .refused .lengthOverflow
  else
    admitRanges (inputSpan src len) (encOutputSpan dst len) <|
      whenReady s <|
        whenAccepted s (inputSpan src len) (encOutputSpan dst len) <|
          .next ((encRun src len dst s).respond (.ok []))

/-- DEC: the length is checked before `READY` and before any access (44_buffer_api.md R205;
60_exceptions.md R228; log entry 15). A length that is no multiple of 16 names no ranges that could
overlap (20_memory.md R57, R60), but one that passes the top of the address space (R61; log entries
11 and 13). -/
def execDec (src len dst : Nat) (s : State) : Result :=
  whenInSpace (inputSpan src len) (decOutputSpan dst len) <|
    if len ≠ 0 ∧ len % 16 ≠ 0 then raise .invalidInput s
    else
      whenAliasAdmitted (inputSpan src len) (decOutputSpan dst len) <|
        whenReady s <|
          whenAccepted s (inputSpan src len) (decOutputSpan dst len) <|
            .next ((decRun src len dst s).respond (.ok []))

end Sys2Proof.Machine
end

