-- ==== Sys2Proof/Machine/KeySchedule.lean ====
section
/-! DEFINITION. The key schedule expander (41_key_expansion.md R120 to R128). -/
namespace Sys2Proof.Machine

/-- What a run of the expander carries: the schedule written so far and the round constant. -/
structure Expander where
  w : List Byte
  rcon : Byte
  deriving DecidableEq, Repr

/-- Four bytes of the schedule from byte index `i` on (00_scope.md R10). -/
def columnAt (w : List Byte) (i : Nat) : Column := Vector.ofFn fun j => w.getD (i + j.val) 0

/-- Rotate left by one position: `(t1, t2, t3, t0)` (41_key_expansion.md R124). -/
def rotateColumn (t : Column) : Column := Vector.ofFn fun j => t[(j.val + 1) % 4]

/-- Substitute each byte through the S-box (41_key_expansion.md R124, R126). -/
def subColumn (t : Column) : Column := Vector.ofFn fun j => sbox t[j]

/-- XOR with the round constant in the first byte position only (41_key_expansion.md R124). -/
def addRcon (rcon : Byte) (t : Column) : Column :=
  Vector.ofFn fun j => if j.val = 0 then t[j] ^^^ rcon else t[j]

/-- Byte by byte XOR of two columns (41_key_expansion.md R127). -/
def xorColumn (t u : Column) : Column := Vector.ofFn fun j => t[j] ^^^ u[j]

/-- One turn of the expansion loop: make the column at byte index `i`, for a key of `kl` bytes
(41_key_expansion.md R121). The schedule grows at its end, since `i` bytes are written already. -/
def expandColumn (kl : Nat) (x : Expander) (i : Nat) : Expander :=
  let t := columnAt x.w (i - 4)
  let earlier := columnAt x.w (i - kl)
  if i % kl = 0 then
    ⟨x.w ++ (xorColumn (addRcon x.rcon (subColumn (rotateColumn t))) earlier).toList, dbl x.rcon⟩
  else if kl = 32 ∧ i % kl = 16 then
    ⟨x.w ++ (xorColumn (subColumn t) earlier).toList, x.rcon⟩
  else
    ⟨x.w ++ (xorColumn t earlier).toList, x.rcon⟩

/-- `total = 16 (kl/4 + 7)`: how many bytes the schedule of a `kl`-byte key has
(41_key_expansion.md R120). -/
def scheduleLength (kl : Nat) : Nat := 16 * (kl / 4 + 7)

/-- `KeyExpand(key)`: the key, then one column per turn for `i = kl, kl + 4, ...` below `total`,
`RCON` starting at `0x01` (41_key_expansion.md R121, R128). -/
def keyExpand (key : List Byte) : Expander :=
  let kl := key.length
  (List.range' kl ((scheduleLength kl - kl) / 4) 4).foldl (expandColumn kl) ⟨key, 0x01⟩

end Sys2Proof.Machine
end

