-- ==== Sys2Proof/Machine/Key.lean ====
section
/-! DEFINITION. The key management commands INIT and SETKEY (40_key_management.md). -/
namespace Sys2Proof.Machine

/-- Store a key and its length, expand it, and raise `READY` (40_key_management.md R101 steps 4 to
7, R103 steps 3 to 5). -/
def State.installKey (klen : Byte) (key : List Byte) (s : State) : State :=
  let x := keyExpand key
  State.setReady { s with klen := klen, key := key, w := x.w, rcon := x.rcon }

/-- INIT: the old key goes first, even when the operands are then refused
(40_key_management.md R101; what `W` then holds: log entry 9). -/
def execInit (klen : Byte) (key : List Byte) (s : State) : Result :=
  let s := s.discardKey
  if legalKeyLength klen && initKeyFits klen key then
    .next ((s.installKey klen (initKey klen key s.key)).respond (.ok []))
  else raise .unsupportedKeyLength s

/-- SETKEY: the operands are checked before anything is written (40_key_management.md R103). -/
def execSetKey (klen : Byte) (key : List Byte) (s : State) : Result :=
  if legalKeyLength klen && setKeyFits klen key then
    .next ((s.installKey klen key).respond (.ok []))
  else raise .unsupportedKeyLength s

end Sys2Proof.Machine
end

