-- ==== Sys2Proof/Machine/Dispatch.lean ====
section
/-! DEFINITION. One arm per command: each calls that command's meaning. -/
namespace Sys2Proof.Machine

def exec (i : Instr) (s : State) : Host.Outcome State Fault Refusal :=
  match i with
  | .init klen key => Sys2Proof.Machine.execInit klen key s
  | .setKey klen key => Sys2Proof.Machine.execSetKey klen key s
  | .encBlk blk => Sys2Proof.Machine.execEncBlk blk s
  | .decBlk blk => Sys2Proof.Machine.execDecBlk blk s
  | .encLen n => Sys2Proof.Machine.execEncLen n s
  | .enc src len dst => Sys2Proof.Machine.execEnc src len dst s
  | .dec src len dst => Sys2Proof.Machine.execDec src len dst s

end Sys2Proof.Machine
end

