-- ==== Sys2Proof/Machine/Port.lean ====
section
/-! DEFINITION. The command port and the reset input: what each thing the host does makes the
machine do (30_encoding.md R71; 70_reset_and_hazards.md R260, R261, R270). -/
namespace Sys2Proof.Machine

/-- Serve one command packet, whole: decode it and run it, or answer `IllegalCommand`
(30_encoding.md R71, R80; 60_exceptions.md R224; log entry 16). -/
def serve (p : Packet) (s : State) : Result :=
  match decode p with
  | .instr i => exec i s
  | .illegal _ => raise .illegalCommand s

/-- The range a command that is being executed writes: empty unless ENC or DEC has passed its checks
(20_memory.md R57). -/
def writtenSpan (d : Decoded) (s : State) : Span :=
  match d with
  | .instr (.enc _ len dst) => if s.ready then encOutputSpan dst len else ⟨dst, 0⟩
  | .instr (.dec _ len dst) => if s.ready && len % 16 == 0 then decOutputSpan dst len else ⟨dst, 0⟩
  | .instr (.init _ _) => ⟨0, 0⟩
  | .instr (.setKey _ _) => ⟨0, 0⟩
  | .instr (.encBlk _) => ⟨0, 0⟩
  | .instr (.decBlk _) => ⟨0, 0⟩
  | .instr (.encLen _) => ⟨0, 0⟩
  | .illegal _ => ⟨0, 0⟩

/-- A command cut short by reset: no response, the core at its reset state, and the bytes of the
output range any values, which the event gives (70_reset_and_hazards.md R261; log entry 3). A
command that has no outcome has none here either. -/
def cutByReset (p : Packet) (fill : List Byte) (s : State) : Result :=
  match serve p s with
  | .next _ =>
    let out := writtenSpan (decode p) s
    .next (State.resetCore { s with mem := memWrite s.mem out.base (fill.take out.size) })
  | .fault r => .fault r
  | .refused r => .refused r

/-- The host writes its own memory, inside the address space (20_memory.md R50, R64; log entry 4). -/
def hostStore (addr : Nat) (bytes : List Byte) (s : State) : Result :=
  if addr + bytes.length ≤ Config.addrSpace then .next { s with mem := memWrite s.mem addr bytes }
  else .refused .addressOverflow

/-- What one thing the host does makes the machine do. -/
def handle (e : HostEvent) (s : State) : Result :=
  match e with
  | .command p => serve p s
  | .reset => .next s.resetCore
  | .commandCutByReset p fill => cutByReset p fill s
  | .hostWrite addr bytes => hostStore addr bytes s

end Sys2Proof.Machine
end

