-- ==== Sys2Proof/Machine/Step.lean ====
section
/-! DEFINITION. One step: the machine takes the oldest thing the host does and handles it whole; with
nothing to do it stays as it is (30_encoding.md R71; 60_exceptions.md R245; log entries 1, 2). -/
namespace Sys2Proof.Machine

/-- The step. -/
def step (s : State) : Host.Outcome State Fault Refusal :=
  match s.inbox with
  | [] => .next s
  | e :: rest => handle e { s with inbox := rest }

/-- `s` with the packet of an opcode-table word as the next thing the host sends. -/
def State.withFetchWord (s : State) (nbits w : Nat) : State :=
  { s with inbox := .command (tablePacket nbits w) :: s.inbox }

end Sys2Proof.Machine
end

