-- ==== Sys2Proof/Safety.lean ====
section
/-! DEFINITION. What counts as a safe state, a legal response and a kept duty, in the terms the
statements use. -/
namespace Sys2Proof.Machine

/-- A response packet of 30_encoding.md R78: `OK` with no payload, a 16-byte block or a 4-byte
number, or one of the four condition bytes alone. -/
def legalResponse (r : Packet) : Bool :=
  match r with
  | [] => false
  | status :: payload =>
    if status = 0x00 then payload.length == 0 || payload.length == 16 || payload.length == 4
    else decide (status.toNat ≤ 4) && payload.length == 0

/-- The invariant between commands. -/
structure State.Inv (s : State) : Prop where
  /-- While `READY` = 1: a legal length, a key of that length, and the complete schedule expanded
  from it (10_state.md R35). -/
  keyed : s.ready = true → legalKeyLength s.klen = true ∧ s.key.length = s.klen.toNat ∧
    s.w.length = 16 * (s.klen.toNat / 4 + 7) ∧ s.w = (keyExpand s.key).w
  /-- While `READY` = 0: no key length, and a zeroed key store (10_state.md R25, R37). -/
  unkeyed : s.ready = false → s.klen = 0 ∧ s.key = zeros 32
  /-- Memory is in canonical form. -/
  memCanonical : s.mem.wf = true
  /-- Memory lists only addresses that exist (20_memory.md R50). -/
  memInSpace : s.mem.inSpace = true
  /-- Every response given is one of 30_encoding.md R78. -/
  responses : ∀ r ∈ s.outbox, legalResponse r = true

/-- The host's and the platform's duties for a command, as far as one command can break them
(70_reset_and_hazards.md R270; 20_memory.md R60, R61; 44_buffer_api.md R207). -/
def DutiesKept (i : Instr) (s : State) : Prop :=
  match i with
  | .init _ _ => True
  | .setKey _ _ => True
  | .encBlk _ => True
  | .decBlk _ => True
  | .encLen n => n ≤ Config.maxLen
  | .enc src len dst =>
    len ≤ Config.maxLen ∧ (inputSpan src len).fits = true ∧ (encOutputSpan dst len).fits = true ∧
      aliasAdmitted (inputSpan src len) (encOutputSpan dst len) = true ∧
      (s.ready = true → s.rejects (inputSpan src len) = false ∧ s.rejects (encOutputSpan dst len) = false)
  | .dec src len dst =>
    (inputSpan src len).fits = true ∧ (decOutputSpan dst len).fits = true ∧
      (len % 16 = 0 → aliasAdmitted (inputSpan src len) (decOutputSpan dst len) = true) ∧
      (s.ready = true → len % 16 = 0 →
        s.rejects (inputSpan src len) = false ∧ s.rejects (decOutputSpan dst len) = false)

/-- The two states differ at most in `S`, `T` and `RCON`, the state no command can observe
(10_state.md R34). -/
def SameButTransient (s s' : State) : Prop :=
  { s with dp := s'.dp, rcon := s'.rcon } = s'

/-- Outcomes that agree but for `S`, `T` and `RCON` of their next states. -/
def SameOutcome (a b : Result) : Prop :=
  match a, b with
  | .next t, .next t' => SameButTransient t t'
  | .fault r, .fault r' => r = r'
  | .refused r, .refused r' => r = r'
  | .next _, .fault _ => False
  | .next _, .refused _ => False
  | .fault _, .next _ => False
  | .fault _, .refused _ => False
  | .refused _, .next _ => False
  | .refused _, .fault _ => False

end Sys2Proof.Machine
end

