-- ==== Sys2Proof/Certificates/Slice0/Obligations.lean ====
section
/-! DEFINITION. The statements about the model, for the provers. -/

open Sys2Proof Sys2Proof.Machine

/-! ## Encoding -/

/-- 30_encoding.md R85, the worked encodings (marked `[derived]` there): each command's packet, read
and written, and the two responses. -/
def Obligations.WorkedEncodingsAreAsPrinted : Prop :=
  let key16 : List Byte := [0x00, 0x01, 0x02, 0x03, 0x04, 0x05, 0x06, 0x07, 0x08, 0x09, 0x0a, 0x0b, 0x0c, 0x0d, 0x0e, 0x0f]
  let blk : Block := #v[0x00, 0x11, 0x22, 0x33, 0x44, 0x55, 0x66, 0x77, 0x88, 0x99, 0xaa, 0xbb, 0xcc, 0xdd, 0xee, 0xff]
  (∀ row ∈ ([
      (.setKey 16 key16, [0x02, 0x10, 0x00, 0x01, 0x02, 0x03, 0x04, 0x05, 0x06, 0x07, 0x08, 0x09, 0x0a, 0x0b, 0x0c, 0x0d, 0x0e, 0x0f]),
      (.init 32 [], [0x01, 0x20]),
      (.encBlk blk, [0x10, 0x00, 0x11, 0x22, 0x33, 0x44, 0x55, 0x66, 0x77, 0x88, 0x99, 0xaa, 0xbb, 0xcc, 0xdd, 0xee, 0xff]),
      (.encLen 17, [0x20, 0x11, 0x00, 0x00, 0x00]),
      (.enc 0x1000 17 0x2000, [0x21, 0x00, 0x10, 0x00, 0x00, 0x11, 0x00, 0x00, 0x00, 0x00, 0x20, 0x00, 0x00]),
      (.dec 0x2000 32 0x3000, [0x22, 0x00, 0x20, 0x00, 0x00, 0x20, 0x00, 0x00, 0x00, 0x00, 0x30, 0x00, 0x00])
      ] : List (Instr × Packet)), decode row.2 = .instr row.1 ∧ encode row.1 = row.2) ∧
  exec (.encLen 17) State.reset = .next { State.reset with outbox := [[0x00, 0x20, 0x00, 0x00, 0x00]] } ∧
  Response.encode (.condition .invalidInput) = [0x01]

/-- 30_encoding.md R73 to R77: where each format's operands stand in its packet, and that numbers
are little-endian; no bit of a field is dropped. -/
def Obligations.OperandFieldsAreReadAsTheFormatsSay : Prop :=
  (∀ (klen : Byte) (key : List Byte),
    decode (0x01 :: klen :: key) = .instr (.init klen key) ∧
    decode (0x02 :: klen :: key) = .instr (.setKey klen key)) ∧
  (∀ blk : Block,
    decode (0x10 :: blk.toList) = .instr (.encBlk blk) ∧
    decode (0x11 :: blk.toList) = .instr (.decBlk blk)) ∧
  (∀ n0 n1 n2 n3 : Byte,
    decode [0x20, n0, n1, n2, n3] =
      .instr (.encLen (n0.toNat + 256 * n1.toNat + 65536 * n2.toNat + 16777216 * n3.toNat))) ∧
  (∀ s0 s1 s2 s3 l0 l1 l2 l3 d0 d1 d2 d3 : Byte,
    let src := s0.toNat + 256 * s1.toNat + 65536 * s2.toNat + 16777216 * s3.toNat
    let len := l0.toNat + 256 * l1.toNat + 65536 * l2.toNat + 16777216 * l3.toNat
    let dst := d0.toNat + 256 * d1.toNat + 65536 * d2.toNat + 16777216 * d3.toNat
    decode [0x21, s0, s1, s2, s3, l0, l1, l2, l3, d0, d1, d2, d3] = .instr (.enc src len dst) ∧
    decode [0x22, s0, s1, s2, s3, l0, l1, l2, l3, d0, d1, d2, d3] = .instr (.dec src len dst))

/-- Every well-formed command is read back from its packet, every operand at every value a packet
can carry (30_encoding.md R72 to R77). -/
def Obligations.DecodeInvertsEncode : Prop :=
  ∀ i : Instr, WellFormed i → decode (encode i) = .instr i

/-- Every packet that decodes is the packet of its command, and the command is well-formed: a packet
has one meaning and a command has one packet (30_encoding.md R72 to R80). -/
def Obligations.EncodeInvertsDecode : Prop :=
  ∀ (p : Packet) (i : Instr), decode p = .instr i → encode i = p ∧ WellFormed i

/-- 30_encoding.md R79: the opcode byte is compared whole; the seven assigned values select their
commands, and a packet with any other opcode raises `IllegalCommand` and changes nothing. -/
def Obligations.OpcodeMapIsWholeAndReservedOpcodesAreIllegal : Prop :=
  opcodeOf 0x01 = some .init ∧ opcodeOf 0x02 = some .setKey ∧ opcodeOf 0x10 = some .encBlk ∧
  opcodeOf 0x11 = some .decBlk ∧ opcodeOf 0x20 = some .encLen ∧ opcodeOf 0x21 = some .enc ∧
  opcodeOf 0x22 = some .dec ∧
  ∀ (op : Byte) (body : List Byte) (s : State),
    op ∉ ([0x01, 0x02, 0x10, 0x11, 0x20, 0x21, 0x22] : List Byte) →
      opcodeOf op = none ∧ serve (op :: body) s = .next { s with outbox := s.outbox ++ [[0x04]] }

/-- 30_encoding.md R80: an empty packet, and an assigned opcode with a length its format does not
give, raise `IllegalCommand` and change nothing; every other packet of an assigned opcode decodes to
a command. -/
def Obligations.MalformedPacketsRaiseIllegalCommand : Prop :=
  (∀ s : State, serve [] s = .next { s with outbox := s.outbox ++ [[0x04]] }) ∧
  (∀ (op : Byte) (body : List Byte) (s : State),
    op ∈ ([0x01, 0x02, 0x10, 0x11, 0x20, 0x21, 0x22] : List Byte) →
    let length := (op :: body).length
    let fits :=
      if op = 0x01 ∨ op = 0x02 then 2 ≤ length
      else if op = 0x10 ∨ op = 0x11 then length = 17
      else if op = 0x20 then length = 5
      else length = 13
    (¬ fits → serve (op :: body) s = .next { s with outbox := s.outbox ++ [[0x04]] }) ∧
    (fits → ∃ i, decode (op :: body) = .instr i))

/-! ## The step -/

/-- A step runs the decoded command on the state without the packet, and adds nothing else
(30_encoding.md R71). The second clause says it of every well-formed command through its packet. -/
def Obligations.StepRunsTheDecodedCommand : Prop :=
  (∀ (s : State) (p : Packet) (rest : List HostEvent) (i : Instr),
    s.inbox = .command p :: rest → decode p = .instr i → step s = exec i { s with inbox := rest }) ∧
  (∀ (s : State) (rest : List HostEvent) (i : Instr),
    WellFormed i → s.inbox = .command (encode i) :: rest → step s = exec i { s with inbox := rest })

/-- 60_exceptions.md R224: a packet the decoder rejects (a reserved opcode, an empty packet, a wrong
length) is not executed at all; the step answers `IllegalCommand` and changes no state and no
memory. -/
def Obligations.StepAnswersIllegalPacketsWithIllegalCommand : Prop :=
  ∀ (s : State) (p : Packet) (rest : List HostEvent) (why : IllegalPacket),
    s.inbox = .command p :: rest → decode p = .illegal why →
      step s = .next { s with inbox := rest, outbox := s.outbox ++ [[0x04]] }

/-- The model's choice (log entries 2 and 4): with nothing to do the machine stays as it is; a host
write inside the address space changes the bytes it names and nothing else. -/
def Obligations.IdleStepsAndHostWrites : Prop :=
  (∀ s : State, s.inbox = [] → step s = .next s) ∧
  (∀ (s : State) (addr : Nat) (bytes : List Byte) (rest : List HostEvent),
    s.inbox = .hostWrite addr bytes :: rest → addr + bytes.length ≤ 2 ^ 32 → s.mem.wf = true →
      ∃ m, step s = .next { s with inbox := rest, mem := m } ∧
        (∀ k, k < bytes.length → m.read (addr + k) = bytes.getD k 0) ∧
        (∀ a, ¬ (addr ≤ a ∧ a < addr + bytes.length) → m.read a = s.mem.read a))

/-! ## Memory primitives -/

/-- 20_memory.md R51, R52: `MemRead` returns the bytes at its addresses, lowest first; `MemWrite`
sets the bytes it names and changes no other, in a memory in canonical form (which
`EveryStepKeepsTheInvariant` says every step keeps). -/
def Obligations.MemReadAndMemWriteMoveExactlyTheirBytes : Prop :=
  (∀ (m : Memory) (addr n : Nat),
    (memRead m addr n).length = n ∧ ∀ k, k < n → (memRead m addr n).getD k 0 = m.read (addr + k)) ∧
  (∀ (m : Memory) (addr : Nat) (v : List Byte), m.wf = true →
    memRead (memWrite m addr v) addr v.length = v ∧
    ∀ a, ¬ (addr ≤ a ∧ a < addr + v.length) → (memWrite m addr v).read a = m.read a)

/-! ## Reset -/

/-- The values that 10_state.md R37 gives: `READY` = 0, `KLEN` = 0, the 32 bytes of the key store
zero. -/
def Obligations.ResetStateIsUnkeyed : Prop :=
  State.reset.ready = false ∧ State.reset.klen = 0 ∧ State.reset.key = List.replicate 32 0

/-- 70_reset_and_hazards.md R260: reset puts `READY`, `KLEN` and the key store at their reset
values, leaves the rest of the core unspecified, and touches neither the host's memory nor its
packets. -/
def Obligations.ResetEventReturnsTheCoreToResetValues : Prop :=
  ∀ (s : State) (rest : List HostEvent), s.inbox = .reset :: rest →
    ∃ d w r, step s = .next { s with
      inbox := rest, ready := false, klen := 0, key := List.replicate 32 0, dp := d, w := w, rcon := r }

/-- A reset during a command (70_reset_and_hazards.md R261; how the event carries the output bytes
is the model's choice, log entry 3): no response, the core at its reset state, the output range of
ENC or DEC at the values the event gives, and every other byte of memory unchanged. -/
def Obligations.ResetDuringACommandGivesNoResponse : Prop :=
  ∀ (s : State) (p : Packet) (fill : List Byte) (rest : List HostEvent) (i : Instr),
    s.inbox = .commandCutByReset p fill :: rest → decode p = .instr i → DutiesKept i s →
    s.mem.wf = true →
      ∃ d w r m, step s = .next { s with
          inbox := rest, ready := false, klen := 0, key := List.replicate 32 0,
          dp := d, w := w, rcon := r, mem := m } ∧
        (match i with
         | .enc _ len dst =>
           (∀ a, ¬ (dst ≤ a ∧ a < dst + encryptedLength len) → m.read a = s.mem.read a) ∧
           (s.ready = false → m = s.mem) ∧
           (s.ready = true → ∀ k, k < encryptedLength len → k < fill.length →
             m.read (dst + k) = fill.getD k 0)
         | .dec _ len dst =>
           (∀ a, ¬ (dst ≤ a ∧ a < dst + len) → m.read a = s.mem.read a) ∧
           (s.ready = false ∨ len % 16 ≠ 0 → m = s.mem) ∧
           (s.ready = true → len % 16 = 0 → ∀ k, k < len → k < fill.length →
             m.read (dst + k) = fill.getD k 0)
         | .init _ _ => m = s.mem
         | .setKey _ _ => m = s.mem
         | .encBlk _ => m = s.mem
         | .decBlk _ => m = s.mem
         | .encLen _ => m = s.mem)

/-! ## Key management -/

/-- 40_key_management.md R101, R102: INIT in every form. With a key of the right length, and with no
key (the all-zero key), it stores the key, expands it and raises `READY`; with a bad length it
leaves the core keyless and answers `UnsupportedKeyLength`. `S`, `T` and memory are never touched.
After a success the rules leave `RCON` dead and the statement leaves it open. After a refusal the
state is the reset state, in which `W`, `S`, `T` and `RCON` are unspecified: the statement leaves
`W` open, and that `S`, `T` and `RCON` are as before is the model's choice (log entry 9). -/
def Obligations.InitConstructsOrRefuses : Prop :=
  ∀ (klen : Byte) (key : List Byte) (s : State),
    (klen = 16 ∨ klen = 24 ∨ klen = 32 → key.length = klen.toNat →
      ∃ r, exec (.init klen key) s = .next { s with
        ready := true, klen := klen, key := key, w := (keyExpand key).w, rcon := r,
        outbox := s.outbox ++ [[0x00]] }) ∧
    (klen = 16 ∨ klen = 24 ∨ klen = 32 → key = [] →
      ∃ r, exec (.init klen key) s = .next { s with
        ready := true, klen := klen, key := List.replicate klen.toNat 0,
        w := (keyExpand (List.replicate klen.toNat 0)).w, rcon := r,
        outbox := s.outbox ++ [[0x00]] }) ∧
    (¬ (klen = 16 ∨ klen = 24 ∨ klen = 32) ∨ (key ≠ [] ∧ key.length ≠ klen.toNat) →
      ∃ w, exec (.init klen key) s = .next { s with
        ready := false, klen := 0, key := List.replicate 32 0, w := w,
        outbox := s.outbox ++ [[0x02]] })

/-- 40_key_management.md R103: SETKEY in every form. A key of a legal length equal to the tag
replaces the stored one, whatever state the core is in; any other operand is answered
`UnsupportedKeyLength` and changes nothing. -/
def Obligations.SetKeyReplacesOrRefuses : Prop :=
  ∀ (klen : Byte) (key : List Byte) (s : State),
    (klen = 16 ∨ klen = 24 ∨ klen = 32 → key.length = klen.toNat →
      ∃ r, exec (.setKey klen key) s = .next { s with
        ready := true, klen := klen, key := key, w := (keyExpand key).w, rcon := r,
        outbox := s.outbox ++ [[0x00]] }) ∧
    (¬ (klen = 16 ∨ klen = 24 ∨ klen = 32) ∨ key.length ≠ klen.toNat →
      exec (.setKey klen key) s = .next { s with outbox := s.outbox ++ [[0x02]] })

/-- 40_key_management.md R106: two successful SETKEY or INIT commands with the same operands leave
`KEY`, `KLEN`, `W` and `READY` equal, whatever the states they start from. -/
def Obligations.SameKeyGivesTheSameConfiguration : Prop :=
  ∀ (klen : Byte) (key : List Byte) (s s' : State) (i i' : Instr),
    klen = 16 ∨ klen = 24 ∨ klen = 32 → key.length = klen.toNat →
    i = .init klen key ∨ i = .setKey klen key → i' = .init klen key ∨ i' = .setKey klen key →
      ∃ t t', exec i s = .next t ∧ exec i' s' = .next t' ∧
        t.key = t'.key ∧ t.klen = t'.klen ∧ t.w = t'.w ∧ t.ready = true ∧ t'.ready = true

/-! ## Key expansion -/

/-- 41_key_expansion.md R120, R122: the schedule has `16(Nr+1)` bytes, 176, 208 or 240, and begins
with the key. -/
def Obligations.ScheduleHasItsLengthAndBeginsWithTheKey : Prop :=
  ∀ key : List Byte, key.length = 16 ∨ key.length = 24 ∨ key.length = 32 →
    (keyExpand key).w.length =
      (if key.length = 16 then 176 else if key.length = 24 then 208 else 240) ∧
    ∀ k, k < key.length → (keyExpand key).w.getD k 0 = key.getD k 0

/-- 41_key_expansion.md R123, R124, R126, R127: every byte of the finished schedule past the key, in
terms of earlier bytes of the schedule. The round constant for the first column of group `g` is that
of R125, `dbl` applied `g - 1` times to `0x01`; its sequence of values is marked `[derived]` there.
-/
def Obligations.ScheduleSatisfiesItsRecurrence : Prop :=
  ∀ key : List Byte, key.length = 16 ∨ key.length = 24 ∨ key.length = 32 →
    let kl := key.length
    let W : Nat → Byte := fun n => (keyExpand key).w.getD n 0
    ∀ i j, i % 4 = 0 → kl ≤ i → i < 16 * (kl / 4 + 7) → j < 4 →
      W (i + j) = W (i - kl + j) ^^^
        (if i % kl = 0 then
          sbox (W (i - 4 + (j + 1) % 4)) ^^^ (if j = 0 then dblPow (i / kl - 1) 0x01 else 0)
        else if kl = 32 ∧ i % kl = 16 then sbox (W (i - 4 + j))
        else W (i - 4 + j))

/-- 41_key_expansion.md R125 (the printed values are marked `[derived]` there): the round constants
used, in order, and the value left at the end of a run for each key length. -/
def Obligations.RoundConstantsAreThePrintedSequence : Prop :=
  (List.range 10).map (fun g => dblPow g 0x01) =
    [0x01, 0x02, 0x04, 0x08, 0x10, 0x20, 0x40, 0x80, 0x1b, 0x36] ∧
  ∀ key : List Byte,
    (key.length = 16 → (keyExpand key).rcon = 0x6c) ∧
    (key.length = 24 → (keyExpand key).rcon = 0x1b) ∧
    (key.length = 32 → (keyExpand key).rcon = 0x80)

/-- 95_test_vectors.md V20, V21, V22: round keys of the three example schedules. -/
def Obligations.ExampleSchedulesAreAsPrinted : Prop :=
  let key : Nat → List Byte := fun n => (List.range n).map fun k => BitVec.ofNat 8 k
  let roundKey : Nat → Nat → List Byte := fun n r => field (keyExpand (key n)).w (16 * r) 16
  roundKey 16 1 = [0xd6, 0xaa, 0x74, 0xfd, 0xd2, 0xaf, 0x72, 0xfa, 0xda, 0xa6, 0x78, 0xf1, 0xd6, 0xab, 0x76, 0xfe] ∧
  roundKey 16 10 = [0x13, 0x11, 0x1d, 0x7f, 0xe3, 0x94, 0x4a, 0x17, 0xf3, 0x07, 0xa7, 0x8b, 0x4d, 0x2b, 0x30, 0xc5] ∧
  roundKey 24 12 = [0xa4, 0x97, 0x0a, 0x33, 0x1a, 0x78, 0xdc, 0x09, 0xc4, 0x18, 0xc2, 0x71, 0xe3, 0xa4, 0x1d, 0x5d] ∧
  roundKey 32 14 = [0x24, 0xfc, 0x79, 0xcc, 0xbf, 0x09, 0x79, 0xe9, 0x37, 0x1a, 0xc2, 0x3c, 0x6d, 0x68, 0xde, 0x36]

/-! ## Round primitives -/

/-- 43_round_primitives.md R160, R161, R162: the row shift through the scratch array has the net
effect of the rules, in both directions. -/
def Obligations.RowShiftThroughScratchHasItsNetEffect : Prop :=
  (∀ d : Datapath, (d.rowShift encryptOffsets).s = shiftRows d.s ∧
    (d.rowShift decryptOffsets).s = invShiftRows d.s) ∧
  (∀ (s : Block) (r c : Fin 4),
    (shiftRows s)[r.val + 4 * c.val] = s[r.val + 4 * ((c.val + r.val) % 4)] ∧
    (invShiftRows s)[r.val + 4 * c.val] = s[r.val + 4 * ((c.val + (4 - r.val) % 4) % 4)])

/-- 43_round_primitives.md R163 (marked `[derived]` there): the row shifts undo each other. -/
def Obligations.RowShiftsUndoEachOther : Prop :=
  ∀ s : Block, invShiftRows (shiftRows s) = s ∧ shiftRows (invShiftRows s) = s

/-- 43_round_primitives.md R174 (marked `[derived]` there) and R171: the substitutions undo each
other, and `SBOX` has no fixed point and no opposite fixed point. -/
def Obligations.SubstitutionsUndoEachOther : Prop :=
  (∀ s : Block, invSubBytes (subBytes s) = s ∧ subBytes (invSubBytes s) = s) ∧
  (∀ a : Byte, sbox a ≠ a ∧ sbox a ≠ a ^^^ 0xff)

/-- 43_round_primitives.md R175 (marked `[from general knowledge]` there; log entry 6): `SBOX` is
the affine map of the field inverse, the inverse of `0x00` counting as `0x00`. -/
def Obligations.SboxIsTheAffineMapOfTheFieldInverse : Prop :=
  ∀ a : Byte, ∃ b : Byte, (a = 0x00 → b = 0x00) ∧ (a ≠ 0x00 → gmul a b = 0x01) ∧
    sbox a = sboxAffine b

/-- 43_round_primitives.md R176: `dbl` is the source's branch-free formula on a wider word, is
linear over XOR, is a bijection, and has the printed values. -/
def Obligations.DoublingIsTheSourceFormulaAndIsLinear : Prop :=
  (∀ a : Byte, dbl a =
    ((a.zeroExtend 16 <<< 1) ^^^ (0x11b &&& -(a.zeroExtend 16 >>> 7))).truncate 8) ∧
  (∀ a b : Byte, dbl (a ^^^ b) = dbl a ^^^ dbl b) ∧
  Function.Bijective dbl ∧
  dbl 0x00 = 0x00 ∧ dbl 0x01 = 0x02 ∧ dbl 0x40 = 0x80 ∧ dbl 0x7f = 0xfe ∧ dbl 0x80 = 0x1b ∧
  dbl 0x8d = 0x01 ∧ dbl 0xff = 0xe5 ∧ dbl 0x1b = 0x36 ∧ dbl 0x36 = 0x6c

/-- 43_round_primitives.md R177 (its laws are marked `[derived]` there): `gmul` by the matrix
entries in terms of `dbl`, the laws of a commutative ring multiplication over XOR, and the worked
products. -/
def Obligations.GmulIsFieldMultiplication : Prop :=
  (∀ a : Byte,
    gmul a 0x00 = 0x00 ∧ gmul a 0x01 = a ∧ gmul a 0x02 = dbl a ∧ gmul a 0x03 = dbl a ^^^ a ∧
    gmul a 0x09 = dblPow 3 a ^^^ a ∧ gmul a 0x0b = dblPow 3 a ^^^ dbl a ^^^ a ∧
    gmul a 0x0d = dblPow 3 a ^^^ dblPow 2 a ^^^ a ∧
    gmul a 0x0e = dblPow 3 a ^^^ dblPow 2 a ^^^ dbl a) ∧
  (∀ a b : Byte, gmul a b = gmul b a) ∧
  (∀ a b c : Byte, gmul (gmul a b) c = gmul a (gmul b c)) ∧
  (∀ a b c : Byte, gmul a (b ^^^ c) = gmul a b ^^^ gmul a c) ∧
  gmul 0x57 0x13 = 0xfe ∧ gmul 0x57 0x83 = 0xc1

/-- 43_round_primitives.md R165 (marked `[derived]` there): the forward column mix is the product
with the MDS matrix. -/
def Obligations.MixColumnsIsTheMdsMatrixProduct : Prop :=
  (∀ s : Block, mixColumns s = matrixMul mdsMatrix s) ∧
  mdsMatrix = #v[#v[0x02, 0x03, 0x01, 0x01], #v[0x01, 0x02, 0x03, 0x01],
    #v[0x01, 0x01, 0x02, 0x03], #v[0x03, 0x01, 0x01, 0x02]]

/-- 43_round_primitives.md R166, R167: the doublings-and-XORs form, which is the spec's own (D24),
equals the matrix product. -/
def Obligations.InvMixColumnsHasADoublingForm : Prop :=
  ∀ s : Block, invMixColumnsByDoubling s = invMixColumns s

/-- 43_round_primitives.md R168 (marked `[derived]` there): the column mixes undo each other. -/
def Obligations.ColumnMixesUndoEachOther : Prop :=
  ∀ s : Block, invMixColumns (mixColumns s) = s ∧ mixColumns (invMixColumns s) = s

/-- 43_round_primitives.md R178: round-key addition byte by byte, and that it is its own inverse.
Past the end of `W`, where R178 says nothing, the byte that counts as zero is the model's choice
(log entry 17). -/
def Obligations.AddRoundKeyIsItsOwnInverse : Prop :=
  ∀ (w : List Byte) (i : Nat) (s : Block),
    (∀ k : Fin 16, (addRoundKey w i s)[k] = s[k] ^^^ w.getD (16 * i + k.val) 0) ∧
    addRoundKey w i (addRoundKey w i s) = s

/-! ## Blocks -/

/-- 42_block_ops.md R141, R144, R160: what the sequencers leave in `S` is `EncryptBlock` and
`DecryptBlock`, whatever `S` and `T` held before. -/
def Obligations.SequencersComputeTheBlockFunctions : Prop :=
  ∀ (w : List Byte) (nr : Nat) (blk : Block) (d : Datapath),
    (d.encrypt w nr blk).s = encryptBlock w nr blk ∧ (d.decrypt w nr blk).s = decryptBlock w nr blk

/-- 42_block_ops.md R146 (marked `[derived]` there; for every byte sequence as schedule and every
round count, not only the reachable ones): the block functions undo each other, so each is a
bijection on blocks. -/
def Obligations.BlockFunctionsUndoEachOther : Prop :=
  ∀ (w : List Byte) (nr : Nat),
    (∀ b : Block, decryptBlock w nr (encryptBlock w nr b) = b) ∧
    (∀ b : Block, encryptBlock w nr (decryptBlock w nr b) = b) ∧
    Function.Bijective (encryptBlock w nr) ∧ Function.Bijective (decryptBlock w nr)

/-- 42_block_ops.md R148 (two of the three marked `[derived]` there) and 95_test_vectors.md V1, V2,
V3: the known answers for the three key lengths, both ways. -/
def Obligations.KnownAnswersForTheThreeKeyLengths : Prop :=
  let w : Nat → List Byte := fun n => (keyExpand ((List.range n).map fun k => BitVec.ofNat 8 k)).w
  let plain : Block := #v[0x00, 0x11, 0x22, 0x33, 0x44, 0x55, 0x66, 0x77, 0x88, 0x99, 0xaa, 0xbb, 0xcc, 0xdd, 0xee, 0xff]
  let c16 : Block := #v[0x69, 0xc4, 0xe0, 0xd8, 0x6a, 0x7b, 0x04, 0x30, 0xd8, 0xcd, 0xb7, 0x80, 0x70, 0xb4, 0xc5, 0x5a]
  let c24 : Block := #v[0xdd, 0xa9, 0x7c, 0xa4, 0x86, 0x4c, 0xdf, 0xe0, 0x6e, 0xaf, 0x70, 0xa0, 0xec, 0x0d, 0x71, 0x91]
  let c32 : Block := #v[0x8e, 0xa2, 0xb7, 0xca, 0x51, 0x67, 0x45, 0xbf, 0xea, 0xfc, 0x49, 0x90, 0x4b, 0x49, 0x60, 0x89]
  encryptBlock (w 16) 10 plain = c16 ∧ decryptBlock (w 16) 10 c16 = plain ∧
  encryptBlock (w 24) 12 plain = c24 ∧ decryptBlock (w 24) 12 c24 = plain ∧
  encryptBlock (w 32) 14 plain = c32 ∧ decryptBlock (w 32) 14 c32 = plain

/-- 42_block_ops.md R140: ENCBLK on a ready core answers `EncryptBlock(W, Nr, blk)` with `Nr =
KLEN/4 + 6`, on an unready one `NotReady`; nothing but `S`, `T` and the response changes. -/
def Obligations.EncBlkAnswersEncryptBlock : Prop :=
  ∀ (blk : Block) (s : State),
    (s.ready = true → ∃ d, exec (.encBlk blk) s = .next { s with
      dp := d,
      outbox := s.outbox ++ [0x00 :: (encryptBlock s.w (s.klen.toNat / 4 + 6) blk).toList] }) ∧
    (s.ready = false → exec (.encBlk blk) s = .next { s with outbox := s.outbox ++ [[0x03]] })

/-- 42_block_ops.md R143: DECBLK on a ready core answers `DecryptBlock(W, Nr, blk)`, on an unready
one `NotReady`; nothing but `S`, `T` and the response changes. -/
def Obligations.DecBlkAnswersDecryptBlock : Prop :=
  ∀ (blk : Block) (s : State),
    (s.ready = true → ∃ d, exec (.decBlk blk) s = .next { s with
      dp := d,
      outbox := s.outbox ++ [0x00 :: (decryptBlock s.w (s.klen.toNat / 4 + 6) blk).toList] }) ∧
    (s.ready = false → exec (.decBlk blk) s = .next { s with outbox := s.outbox ++ [[0x03]] })

/-- 42_block_ops.md R146 (marked `[derived]` there) at the command port: on a ready core, DECBLK of
what ENCBLK answered answers the block that ENCBLK was given. -/
def Obligations.DecBlkUndoesEncBlk : Prop :=
  ∀ (blk : Block) (s : State), s.ready = true →
    ∃ t c u, exec (.encBlk blk) s = .next t ∧ t.outbox = s.outbox ++ [0x00 :: Vector.toList c] ∧
      exec (.decBlk c) t = .next u ∧ u.outbox = t.outbox ++ [0x00 :: blk.toList]

/-! ## Buffers -/

/-- 44_buffer_api.md R200: `encLen` rounds up to a multiple of 16, adds at most 15, and has the
printed values. Those for 1, 31, 32 and 33 are marked `[derived]` there. -/
def Obligations.EncryptedLengthRoundsUpTo16 : Prop :=
  (∀ n : Nat, encryptedLength n = (if n % 16 = 0 then n else n + 16 - n % 16) ∧
    encryptedLength n % 16 = 0 ∧ n ≤ encryptedLength n ∧ encryptedLength n - n ≤ 15) ∧
  encryptedLength 0 = 0 ∧ encryptedLength 16 = 16 ∧ encryptedLength 17 = 32 ∧
  encryptedLength 15 = 16 ∧ encryptedLength 1 = 16 ∧ encryptedLength 31 = 32 ∧
  encryptedLength 32 = 32 ∧ encryptedLength 33 = 48

/-- 44_buffer_api.md R201, R207: ENCLEN answers `encLen(n)` as four little-endian bytes in every
state and changes nothing else; above `2^32 - 16` it is refused. -/
def Obligations.EncLenAnswersTheRoundedLength : Prop :=
  ∀ (n : Nat) (s : State),
    (n ≤ 2 ^ 32 - 16 → ∃ b0 b1 b2 b3 : Byte,
      exec (.encLen n) s = .next { s with outbox := s.outbox ++ [[0x00, b0, b1, b2, b3]] } ∧
      b0.toNat + 256 * b1.toNat + 65536 * b2.toNat + 16777216 * b3.toNat = 16 * ((n + 15) / 16)) ∧
    (2 ^ 32 - 16 < n → exec (.encLen n) s = .refused .lengthOverflow)

/-- 44_buffer_api.md R202, R203: ENC on a ready core, with ranges that 20_memory.md R60 and R61
admit and that the platform accepts. The output range then holds `EncryptBuffer` of the input as it
stood before; every other byte of memory, and all state but `S` and `T`, is unchanged. -/
def Obligations.EncWritesTheEncryptedBuffer : Prop :=
  ∀ (src len dst : Nat) (s : State),
    s.ready = true → s.mem.wf = true →
    len ≤ 2 ^ 32 - 16 → src + len ≤ 2 ^ 32 → dst + encryptedLength len ≤ 2 ^ 32 →
    (src = dst ∨ ∀ a, ¬ ((src ≤ a ∧ a < src + len) ∧ (dst ≤ a ∧ a < dst + encryptedLength len))) →
    (∀ hole ∈ s.rejected, ∀ a, hole.base ≤ a → a < hole.base + hole.size →
      ¬ (src ≤ a ∧ a < src + len) ∧ ¬ (dst ≤ a ∧ a < dst + encryptedLength len)) →
      ∃ d m, exec (.enc src len dst) s =
          .next { s with dp := d, mem := m, outbox := s.outbox ++ [[0x00]] } ∧
        (∀ k, k < encryptedLength len → m.read (dst + k) =
          (encryptBuffer s.w (s.klen.toNat / 4 + 6) (memRead s.mem src len)).getD k 0) ∧
        (∀ a, ¬ (dst ≤ a ∧ a < dst + encryptedLength len) → m.read a = s.mem.read a)

/-- 44_buffer_api.md R205: DEC of whole blocks on a ready core, with ranges that 20_memory.md R60
and R61 admit and that the platform accepts. Block `b` of the output is `DecryptBlock` of block `b`
of the input as it stood before; every other byte of memory, and all state but `S` and `T`, is
unchanged. -/
def Obligations.DecWritesTheDecryptedBlocks : Prop :=
  ∀ (src len dst : Nat) (s : State),
    s.ready = true → s.mem.wf = true →
    len % 16 = 0 → src + len ≤ 2 ^ 32 → dst + len ≤ 2 ^ 32 →
    (src = dst ∨ ∀ a, ¬ ((src ≤ a ∧ a < src + len) ∧ (dst ≤ a ∧ a < dst + len))) →
    (∀ hole ∈ s.rejected, ∀ a, hole.base ≤ a → a < hole.base + hole.size →
      ¬ (src ≤ a ∧ a < src + len) ∧ ¬ (dst ≤ a ∧ a < dst + len)) →
      ∃ d m, exec (.dec src len dst) s =
          .next { s with dp := d, mem := m, outbox := s.outbox ++ [[0x00]] } ∧
        (∀ (b : Nat) (k : Fin 16), b < len / 16 → m.read (dst + 16 * b + k.val) =
          (decryptBlock s.w (s.klen.toNat / 4 + 6)
            (Vector.ofFn fun j : Fin 16 => s.mem.read (src + 16 * b + j.val)))[k]) ∧
        (∀ a, ¬ (dst ≤ a ∧ a < dst + len) → m.read a = s.mem.read a)

/-- 44_buffer_api.md R205, 60_exceptions.md R221: a length that is not a multiple of 16 is answered
`InvalidInput` by DEC, ready or not, however its two ranges lie to each other, and not one byte of
memory or state has changed. The ranges must end inside the address space (log entries 11, 13). -/
def Obligations.DecAnswersInvalidInputForPartialBlocks : Prop :=
  ∀ (src len dst : Nat) (s : State),
    len % 16 ≠ 0 → src + len ≤ 2 ^ 32 → dst + len ≤ 2 ^ 32 →
      exec (.dec src len dst) s = .next { s with outbox := s.outbox ++ [[0x01]] }

/-- 60_exceptions.md R223, R228: while `READY` = 0 the block and buffer commands answer `NotReady`
and change nothing (DEC of a partial block answers `InvalidInput` first); ENCLEN never does. The
ranges must be ones the spec admits (log entry 11). -/
def Obligations.UnreadyCoreAnswersNotReady : Prop :=
  ∀ s : State, s.ready = false →
    (∀ blk : Block, exec (.encBlk blk) s = .next { s with outbox := s.outbox ++ [[0x03]] } ∧
      exec (.decBlk blk) s = .next { s with outbox := s.outbox ++ [[0x03]] }) ∧
    (∀ src len dst : Nat, len ≤ 2 ^ 32 - 16 → src + len ≤ 2 ^ 32 →
      dst + encryptedLength len ≤ 2 ^ 32 →
      (src = dst ∨ ∀ a, ¬ ((src ≤ a ∧ a < src + len) ∧ (dst ≤ a ∧ a < dst + encryptedLength len))) →
        exec (.enc src len dst) s = .next { s with outbox := s.outbox ++ [[0x03]] }) ∧
    (∀ src len dst : Nat, src + len ≤ 2 ^ 32 → dst + len ≤ 2 ^ 32 →
      (len % 16 = 0 →
        src = dst ∨ ∀ a, ¬ ((src ≤ a ∧ a < src + len) ∧ (dst ≤ a ∧ a < dst + len))) →
        exec (.dec src len dst) s =
          .next { s with outbox := s.outbox ++ [[if len % 16 = 0 then 0x03 else 0x01]] }) ∧
    (∀ n : Nat, n ≤ 2 ^ 32 - 16 → ∃ t, exec (.encLen n) s = .next t ∧
      t.outbox.getLast? ≠ some [0x03])

/-- 20_memory.md R60, R61, 44_buffer_api.md R207, 60_exceptions.md R228 (as log entry 11 reads
them): ENC and DEC are refused, whatever else holds, when a length or a range overflows, and ENC and
DEC of whole blocks when the ranges overlap without starting at the same address. -/
def Obligations.OverflowAndOverlapAreRefused : Prop :=
  ∀ (src len dst : Nat) (s : State),
    (2 ^ 32 - 16 < len → exec (.enc src len dst) s = .refused .lengthOverflow) ∧
    (len ≤ 2 ^ 32 - 16 → 2 ^ 32 < src + len ∨ 2 ^ 32 < dst + encryptedLength len →
      exec (.enc src len dst) s = .refused .addressOverflow) ∧
    (len ≤ 2 ^ 32 - 16 → src + len ≤ 2 ^ 32 → dst + encryptedLength len ≤ 2 ^ 32 → src ≠ dst →
      (∃ a, (src ≤ a ∧ a < src + len) ∧ (dst ≤ a ∧ a < dst + encryptedLength len)) →
        exec (.enc src len dst) s = .refused .partialOverlap) ∧
    (2 ^ 32 < src + len ∨ 2 ^ 32 < dst + len →
      exec (.dec src len dst) s = .refused .addressOverflow) ∧
    (len % 16 = 0 → src + len ≤ 2 ^ 32 → dst + len ≤ 2 ^ 32 → src ≠ dst →
      (∃ a, (src ≤ a ∧ a < src + len) ∧ (dst ≤ a ∧ a < dst + len)) →
        exec (.dec src len dst) s = .refused .partialOverlap)

/-- 20_memory.md R61 and 93_implementation_defined.md U4 (how the platform's refusals are held is
the model's choice, log entry 12): a transfer that meets an address the platform does not accept has
no step. -/
def Obligations.RejectedAccessIsStuck : Prop :=
  ∀ (src len dst : Nat) (s : State) (hole : Span) (a : Nat),
    s.ready = true → hole ∈ s.rejected → hole.base ≤ a → a < hole.base + hole.size →
    (len ≤ 2 ^ 32 - 16 → src + len ≤ 2 ^ 32 → dst + encryptedLength len ≤ 2 ^ 32 →
      (src = dst ∨ ∀ x, ¬ ((src ≤ x ∧ x < src + len) ∧ (dst ≤ x ∧ x < dst + encryptedLength len))) →
      (src ≤ a ∧ a < src + len) ∨ (dst ≤ a ∧ a < dst + encryptedLength len) →
        exec (.enc src len dst) s = .fault .accessRejected) ∧
    (len % 16 = 0 → src + len ≤ 2 ^ 32 → dst + len ≤ 2 ^ 32 →
      (src = dst ∨ ∀ x, ¬ ((src ≤ x ∧ x < src + len) ∧ (dst ≤ x ∧ x < dst + len))) →
      (src ≤ a ∧ a < src + len) ∨ (dst ≤ a ∧ a < dst + len) →
        exec (.dec src len dst) s = .fault .accessRejected)

/-- 44_buffer_api.md R204: the trailing partial block is encrypted as if the input went on with zero
bytes up to a multiple of 16, for every remainder. -/
def Obligations.PartialBlocksAreZeroFilled : Prop :=
  ∀ (w : List Byte) (nr : Nat) (m : List Byte),
    (encryptBuffer w nr m).length = encryptedLength m.length ∧
    encryptBuffer w nr m =
      encryptBuffer w nr (m ++ List.replicate (encryptedLength m.length - m.length) 0)

/-- 44_buffer_api.md R202: no chaining. Whole blocks in front of a message do not change how the
rest is encrypted, and a whole block alone is encrypted by `EncryptBlock`. -/
def Obligations.BlocksOfABufferAreIndependent : Prop :=
  ∀ (w : List Byte) (nr : Nat),
    (∀ m m' : List Byte, m.length % 16 = 0 →
      encryptBuffer w nr (m ++ m') = encryptBuffer w nr m ++ encryptBuffer w nr m') ∧
    (∀ blk : Block, encryptBuffer w nr blk.toList = (encryptBlock w nr blk).toList)

/-- 44_buffer_api.md R206, R208 (marked `[derived]` there): ENC from `a` to `b`, then DEC of the
whole output from `b` to `c`, on a ready core whose platform accepts everything
(`EncWritesTheEncryptedBuffer` and `DecWritesTheDecryptedBlocks` cover platforms that reject other
addresses): the original bytes stand at `c`, followed by zero bytes up to the rounded length. -/
def Obligations.DecOfEncRestoresTheBufferWithZeroPadding : Prop :=
  ∀ (a b c len : Nat) (s : State),
    s.ready = true → s.mem.wf = true → s.rejected = [] → len ≤ 2 ^ 32 - 16 → a + len ≤ 2 ^ 32 →
    b + encryptedLength len ≤ 2 ^ 32 → c + encryptedLength len ≤ 2 ^ 32 →
    (a = b ∨ ∀ x, ¬ ((a ≤ x ∧ x < a + len) ∧ (b ≤ x ∧ x < b + encryptedLength len))) →
    (b = c ∨ ∀ x, ¬ ((b ≤ x ∧ x < b + encryptedLength len) ∧ (c ≤ x ∧ x < c + encryptedLength len))) →
      ∃ t u, exec (.enc a len b) s = .next t ∧ exec (.dec b (encryptedLength len) c) t = .next u ∧
        (∀ k, k < len → u.mem.read (c + k) = s.mem.read (a + k)) ∧
        (∀ k, len ≤ k → k < encryptedLength len → u.mem.read (c + k) = 0)

/-! ## The whole machine -/

/-- 40_key_management.md R107 (marked `[derived]` there): INIT and SETKEY are the only commands that
change `KEY`, `KLEN`, `W` and `READY`. The further clauses are the model's choice: the other
commands leave `RCON` alone too (log entry 10), and no command changes what the host will do next
(log entry 1) or what the platform accepts (log entry 12). -/
def Obligations.OnlyKeyCommandsChangeTheConfiguration : Prop :=
  ∀ (i : Instr) (s t : State), exec i s = .next t →
    t.inbox = s.inbox ∧ t.rejected = s.rejected ∧
    ((∃ klen key, i = .init klen key ∨ i = .setKey klen key) ∨
      (t.key = s.key ∧ t.klen = s.klen ∧ t.w = s.w ∧ t.ready = s.ready ∧ t.rcon = s.rcon))

/-- 20_memory.md R53: INIT, SETKEY, ENCBLK, DECBLK and ENCLEN make no memory access: with any other
memory they do the same and leave that memory as it is. -/
def Obligations.OnlyBufferCommandsReachMemory : Prop :=
  ∀ (i : Instr) (s t : State) (m : Memory),
    (∀ src len dst, i ≠ .enc src len dst ∧ i ≠ .dec src len dst) → exec i s = .next t →
      t.mem = s.mem ∧ exec i { s with mem := m } = .next { t with mem := m }

/-- 30_encoding.md R78 and the table of 60_exceptions.md R225: a command that completes appends
exactly one response, and it is one that the command may give. -/
def Obligations.EachCommandGivesOneOfItsResponses : Prop :=
  ∀ (i : Instr) (s t : State), exec i s = .next t →
    ∃ r, t.outbox = s.outbox ++ [r] ∧
      (match i with
       | .init _ _ => r = [0x00] ∨ r = [0x02]
       | .setKey _ _ => r = [0x00] ∨ r = [0x02]
       | .encBlk _ => (∃ out : Block, r = 0x00 :: out.toList) ∨ r = [0x03]
       | .decBlk _ => (∃ out : Block, r = 0x00 :: out.toList) ∨ r = [0x03]
       | .encLen _ => ∃ b0 b1 b2 b3, r = [0x00, b0, b1, b2, b3]
       | .enc _ _ _ => r = [0x00] ∨ r = [0x03]
       | .dec _ _ _ => r = [0x00] ∨ r = [0x01] ∨ r = [0x03])

/-- 70_reset_and_hazards.md R262, 60_exceptions.md R229 (both marked `[derived]` there): while
`READY` = 0 only INIT, SETKEY and ENCLEN answer `OK`, and only the first two make the core ready. -/
def Obligations.UnreadyCoreServesOnlyKeyCommandsAndEncLen : Prop :=
  ∀ (i : Instr) (s t : State) (payload : List Byte), s.ready = false → exec i s = .next t →
    (t.outbox = s.outbox ++ [0x00 :: payload] →
      (∃ klen key, i = .init klen key ∨ i = .setKey klen key) ∨ ∃ n, i = .encLen n) ∧
    (t.ready = true → ∃ klen key, i = .init klen key ∨ i = .setKey klen key)

/-- 70_reset_and_hazards.md R270, R272, as the model reads them: a command completes exactly when
the host's and the platform's duties for it are kept. The model's reading is that refusals come
before the conditions (log entry 11), that a rejected access counts only after them and for reads
and writes alike (log entry 12), that an empty range overlaps nothing and a DEC of a partial block
has `[dst, dst + len)` to end inside the address space (log entry 13), and that DEC has no length
bound of its own (log entry 15). -/
def Obligations.CommandsCompleteExactlyWhenDutiesAreKept : Prop :=
  ∀ (i : Instr) (s : State), (∃ t, exec i s = .next t) ↔ DutiesKept i s

/-- 10_state.md R22, R23, R27, R34: no step's result depends on what `S`, `T` and `RCON` held: from
two states that differ only there, a step gives the same fault, the same refusal, or next states
that differ only there. -/
def Obligations.TransientStateIsUnobservable : Prop :=
  ∀ s s' : State, SameButTransient s s' → SameOutcome (step s) (step s')

/-- The invariant holds at reset (10_state.md R35, R37). -/
def Obligations.ResetStateMeetsTheInvariant : Prop := State.Inv State.reset

/-- 10_state.md R35 (that every command preserves it is marked `[derived]` there): the invariant
between commands is kept by every step: a ready core holds a legal key length, a key of that length
and the complete schedule expanded from it; an unready one holds no key; memory keeps its canonical
form; every response is one of 30_encoding.md R78. -/
def Obligations.EveryStepKeepsTheInvariant : Prop :=
  ∀ s t : State, State.Inv s → step s = .next t → State.Inv t
end

