-- ==== Sys2Proof/Laws/Decode.lean ====
section
/-! SUPPORT. The laws of the byte-order helpers and of the decoder's parts. -/
namespace Sys2Proof

/-! ## Byte order -/

theorem leBytes_four (n : Nat) :
    leBytes 4 n = [BitVec.ofNat 8 n, BitVec.ofNat 8 (n / 256), BitVec.ofNat 8 (n / 256 / 256),
      BitVec.ofNat 8 (n / 256 / 256 / 256)] := rfl

@[simp] theorem leBytes_length (k n : Nat) : (leBytes k n).length = k := by
  induction k generalizing n with
  | zero => rfl
  | succ k ih => simp [leBytes, ih]

theorem leNat_leBytes (k : Nat) {n : Nat} (h : n < 256 ^ k) : leNat (leBytes k n) = n := by
  induction k generalizing n with
  | zero => simp only [Nat.pow_zero] at h; simp only [leBytes, leNat]; omega
  | succ k ih =>
    have h' : n / 256 < 256 ^ k := by rw [Nat.pow_succ] at h; omega
    rw [leBytes, leNat, ih h', BitVec.toNat_ofNat]
    omega

theorem leNat_lt (bs : List Byte) : leNat bs < 256 ^ bs.length := by
  induction bs with
  | nil => simp [leNat]
  | cons b bs ih =>
    have hb : b.toNat < 256 := b.isLt
    rw [leNat, List.length_cons, Nat.pow_succ]
    omega

theorem leBytes_leNat (bs : List Byte) : leBytes bs.length (leNat bs) = bs := by
  induction bs with
  | nil => rfl
  | cons b bs ih =>
    have hb : b.toNat < 256 := b.isLt
    have hd : (b.toNat + 256 * leNat bs) / 256 = leNat bs := by omega
    rw [List.length_cons, leBytes, leNat, hd, ih]
    congr 1
    apply BitVec.eq_of_toNat_eq
    rw [BitVec.toNat_ofNat]
    omega

/-! ## Blocks -/

@[simp] theorem blockOfBytes_toList (blk : Block) : blockOfBytes blk.toList = blk := by
  refine Vector.ext fun k hk => ?_
  simp [blockOfBytes]

theorem toList_blockOfBytes {bs : List Byte} (h : bs.length = 16) : (blockOfBytes bs).toList = bs := by
  apply List.ext_getElem
  · simp [h]
  · intro k h1 h2
    simp [blockOfBytes, h2]

@[simp] theorem blockOfBytes_getElem (bs : List Byte) (k : Nat) (hk : k < 16) :
    (blockOfBytes bs)[k] = bs.getD k 0 := by
  simp [blockOfBytes]

/-! ## The decoder's parts -/

/-- Every opcode byte is one of the seven assigned ones, or selects no command. -/
theorem opcode_cases (op : Byte) :
    op ∈ ([0x01, 0x02, 0x10, 0x11, 0x20, 0x21, 0x22] : List Byte) ∨ opcodeOf op = none := by
  revert op; decide +kernel

/-- The only commands the decoder gives: those of an assigned opcode whose format the length fits. -/
theorem decode_cons_eq_instr {op : Byte} {body : List Byte} {i : Instr} :
    decode (op :: body) = .instr i ↔
      ∃ o, opcodeOf op = some o ∧ o.format.fits (body.length + 1) = true ∧
        operands o (op :: body) = i := by
  simp only [decode, List.length_cons]
  cases opcodeOf op with
  | none => simp
  | some o => by_cases h : o.format.fits (body.length + 1) = true <;> simp [h]

theorem field_length {p : Packet} {o n : Nat} (h : o + n ≤ p.length) : (field p o n).length = n := by
  simp only [field, List.length_take, List.length_drop]
  omega

end Sys2Proof
end

