-- ==== Sys2Proof/Laws/State.lean ====
section
/-! SUPPORT. What each update of the state does to each field: one lemma a field, each true by
definition. -/
namespace Sys2Proof.Machine

/-! ## `State.setReady` -/

@[simp] theorem State.setReady_dp (s : State) : s.setReady.dp = s.dp := rfl
@[simp] theorem State.setReady_key (s : State) : s.setReady.key = s.key := rfl
@[simp] theorem State.setReady_klen (s : State) : s.setReady.klen = s.klen := rfl
@[simp] theorem State.setReady_w (s : State) : s.setReady.w = s.w := rfl
@[simp] theorem State.setReady_rcon (s : State) : s.setReady.rcon = s.rcon := rfl
@[simp] theorem State.setReady_ready (s : State) : s.setReady.ready = true := rfl
@[simp] theorem State.setReady_mem (s : State) : s.setReady.mem = s.mem := rfl
@[simp] theorem State.setReady_inbox (s : State) : s.setReady.inbox = s.inbox := rfl
@[simp] theorem State.setReady_outbox (s : State) : s.setReady.outbox = s.outbox := rfl
@[simp] theorem State.setReady_rejected (s : State) : s.setReady.rejected = s.rejected := rfl

/-! ## `State.clearReady` -/

@[simp] theorem State.clearReady_dp (s : State) : s.clearReady.dp = s.dp := rfl
@[simp] theorem State.clearReady_key (s : State) : s.clearReady.key = s.key := rfl
@[simp] theorem State.clearReady_klen (s : State) : s.clearReady.klen = s.klen := rfl
@[simp] theorem State.clearReady_w (s : State) : s.clearReady.w = s.w := rfl
@[simp] theorem State.clearReady_rcon (s : State) : s.clearReady.rcon = s.rcon := rfl
@[simp] theorem State.clearReady_ready (s : State) : s.clearReady.ready = false := rfl
@[simp] theorem State.clearReady_mem (s : State) : s.clearReady.mem = s.mem := rfl
@[simp] theorem State.clearReady_inbox (s : State) : s.clearReady.inbox = s.inbox := rfl
@[simp] theorem State.clearReady_outbox (s : State) : s.clearReady.outbox = s.outbox := rfl
@[simp] theorem State.clearReady_rejected (s : State) : s.clearReady.rejected = s.rejected := rfl

/-! ## `State.respond` -/

@[simp] theorem State.respond_dp (s : State) (r : Response) : (s.respond r).dp = s.dp := rfl
@[simp] theorem State.respond_key (s : State) (r : Response) : (s.respond r).key = s.key := rfl
@[simp] theorem State.respond_klen (s : State) (r : Response) : (s.respond r).klen = s.klen := rfl
@[simp] theorem State.respond_w (s : State) (r : Response) : (s.respond r).w = s.w := rfl
@[simp] theorem State.respond_rcon (s : State) (r : Response) : (s.respond r).rcon = s.rcon := rfl
@[simp] theorem State.respond_ready (s : State) (r : Response) : (s.respond r).ready = s.ready := rfl
@[simp] theorem State.respond_mem (s : State) (r : Response) : (s.respond r).mem = s.mem := rfl
@[simp] theorem State.respond_inbox (s : State) (r : Response) : (s.respond r).inbox = s.inbox := rfl
@[simp] theorem State.respond_outbox (s : State) (r : Response) : (s.respond r).outbox = s.outbox ++ [Response.encode r] := rfl
@[simp] theorem State.respond_rejected (s : State) (r : Response) : (s.respond r).rejected = s.rejected := rfl

/-! ## `State.discardKey` -/

@[simp] theorem State.discardKey_dp (s : State) : s.discardKey.dp = s.dp := rfl
@[simp] theorem State.discardKey_key (s : State) : s.discardKey.key = zeros Config.keyStoreBytes := rfl
@[simp] theorem State.discardKey_klen (s : State) : s.discardKey.klen = 0 := rfl
@[simp] theorem State.discardKey_w (s : State) : s.discardKey.w = s.w := rfl
@[simp] theorem State.discardKey_rcon (s : State) : s.discardKey.rcon = s.rcon := rfl
@[simp] theorem State.discardKey_ready (s : State) : s.discardKey.ready = false := rfl
@[simp] theorem State.discardKey_mem (s : State) : s.discardKey.mem = s.mem := rfl
@[simp] theorem State.discardKey_inbox (s : State) : s.discardKey.inbox = s.inbox := rfl
@[simp] theorem State.discardKey_outbox (s : State) : s.discardKey.outbox = s.outbox := rfl
@[simp] theorem State.discardKey_rejected (s : State) : s.discardKey.rejected = s.rejected := rfl

/-! ## `State.resetCore` -/

@[simp] theorem State.resetCore_dp (s : State) : s.resetCore.dp = Datapath.reset := rfl
@[simp] theorem State.resetCore_key (s : State) : s.resetCore.key = zeros Config.keyStoreBytes := rfl
@[simp] theorem State.resetCore_klen (s : State) : s.resetCore.klen = 0 := rfl
@[simp] theorem State.resetCore_w (s : State) : s.resetCore.w = State.reset.w := rfl
@[simp] theorem State.resetCore_rcon (s : State) : s.resetCore.rcon = State.reset.rcon := rfl
@[simp] theorem State.resetCore_ready (s : State) : s.resetCore.ready = false := rfl
@[simp] theorem State.resetCore_mem (s : State) : s.resetCore.mem = s.mem := rfl
@[simp] theorem State.resetCore_inbox (s : State) : s.resetCore.inbox = s.inbox := rfl
@[simp] theorem State.resetCore_outbox (s : State) : s.resetCore.outbox = s.outbox := rfl
@[simp] theorem State.resetCore_rejected (s : State) : s.resetCore.rejected = s.rejected := rfl

/-! ## `State.installKey` -/

@[simp] theorem State.installKey_dp (s : State) (klen : Byte) (key : List Byte) : (s.installKey klen key).dp = s.dp := rfl
@[simp] theorem State.installKey_key (s : State) (klen : Byte) (key : List Byte) : (s.installKey klen key).key = key := rfl
@[simp] theorem State.installKey_klen (s : State) (klen : Byte) (key : List Byte) : (s.installKey klen key).klen = klen := rfl
@[simp] theorem State.installKey_w (s : State) (klen : Byte) (key : List Byte) : (s.installKey klen key).w = (keyExpand key).w := rfl
@[simp] theorem State.installKey_rcon (s : State) (klen : Byte) (key : List Byte) : (s.installKey klen key).rcon = (keyExpand key).rcon := rfl
@[simp] theorem State.installKey_ready (s : State) (klen : Byte) (key : List Byte) : (s.installKey klen key).ready = true := rfl
@[simp] theorem State.installKey_mem (s : State) (klen : Byte) (key : List Byte) : (s.installKey klen key).mem = s.mem := rfl
@[simp] theorem State.installKey_inbox (s : State) (klen : Byte) (key : List Byte) : (s.installKey klen key).inbox = s.inbox := rfl
@[simp] theorem State.installKey_outbox (s : State) (klen : Byte) (key : List Byte) : (s.installKey klen key).outbox = s.outbox := rfl
@[simp] theorem State.installKey_rejected (s : State) (klen : Byte) (key : List Byte) : (s.installKey klen key).rejected = s.rejected := rfl

/-! ## `State.encryptOne` -/

@[simp] theorem State.encryptOne_dp (s : State) (blk : Block) : (s.encryptOne blk).dp = s.dp.encrypt s.w s.nr blk := rfl
@[simp] theorem State.encryptOne_key (s : State) (blk : Block) : (s.encryptOne blk).key = s.key := rfl
@[simp] theorem State.encryptOne_klen (s : State) (blk : Block) : (s.encryptOne blk).klen = s.klen := rfl
@[simp] theorem State.encryptOne_w (s : State) (blk : Block) : (s.encryptOne blk).w = s.w := rfl
@[simp] theorem State.encryptOne_rcon (s : State) (blk : Block) : (s.encryptOne blk).rcon = s.rcon := rfl
@[simp] theorem State.encryptOne_ready (s : State) (blk : Block) : (s.encryptOne blk).ready = s.ready := rfl
@[simp] theorem State.encryptOne_mem (s : State) (blk : Block) : (s.encryptOne blk).mem = s.mem := rfl
@[simp] theorem State.encryptOne_inbox (s : State) (blk : Block) : (s.encryptOne blk).inbox = s.inbox := rfl
@[simp] theorem State.encryptOne_outbox (s : State) (blk : Block) : (s.encryptOne blk).outbox = s.outbox := rfl
@[simp] theorem State.encryptOne_rejected (s : State) (blk : Block) : (s.encryptOne blk).rejected = s.rejected := rfl

/-! ## `State.decryptOne` -/

@[simp] theorem State.decryptOne_dp (s : State) (blk : Block) : (s.decryptOne blk).dp = s.dp.decrypt s.w s.nr blk := rfl
@[simp] theorem State.decryptOne_key (s : State) (blk : Block) : (s.decryptOne blk).key = s.key := rfl
@[simp] theorem State.decryptOne_klen (s : State) (blk : Block) : (s.decryptOne blk).klen = s.klen := rfl
@[simp] theorem State.decryptOne_w (s : State) (blk : Block) : (s.decryptOne blk).w = s.w := rfl
@[simp] theorem State.decryptOne_rcon (s : State) (blk : Block) : (s.decryptOne blk).rcon = s.rcon := rfl
@[simp] theorem State.decryptOne_ready (s : State) (blk : Block) : (s.decryptOne blk).ready = s.ready := rfl
@[simp] theorem State.decryptOne_mem (s : State) (blk : Block) : (s.decryptOne blk).mem = s.mem := rfl
@[simp] theorem State.decryptOne_inbox (s : State) (blk : Block) : (s.decryptOne blk).inbox = s.inbox := rfl
@[simp] theorem State.decryptOne_outbox (s : State) (blk : Block) : (s.decryptOne blk).outbox = s.outbox := rfl
@[simp] theorem State.decryptOne_rejected (s : State) (blk : Block) : (s.decryptOne blk).rejected = s.rejected := rfl

/-! ## `State.respondBlock` -/

@[simp] theorem State.respondBlock_dp (s : State) : s.respondBlock.dp = s.dp := rfl
@[simp] theorem State.respondBlock_key (s : State) : s.respondBlock.key = s.key := rfl
@[simp] theorem State.respondBlock_klen (s : State) : s.respondBlock.klen = s.klen := rfl
@[simp] theorem State.respondBlock_w (s : State) : s.respondBlock.w = s.w := rfl
@[simp] theorem State.respondBlock_rcon (s : State) : s.respondBlock.rcon = s.rcon := rfl
@[simp] theorem State.respondBlock_ready (s : State) : s.respondBlock.ready = s.ready := rfl
@[simp] theorem State.respondBlock_mem (s : State) : s.respondBlock.mem = s.mem := rfl
@[simp] theorem State.respondBlock_inbox (s : State) : s.respondBlock.inbox = s.inbox := rfl
@[simp] theorem State.respondBlock_outbox (s : State) : s.respondBlock.outbox = s.outbox ++ [0x00 :: s.dp.s.toList] := rfl
@[simp] theorem State.respondBlock_rejected (s : State) : s.respondBlock.rejected = s.rejected := rfl

/-! ## `State.storeBlock` -/

@[simp] theorem State.storeBlock_dp (s : State) (addr : Nat) : (s.storeBlock addr).dp = s.dp := rfl
@[simp] theorem State.storeBlock_key (s : State) (addr : Nat) : (s.storeBlock addr).key = s.key := rfl
@[simp] theorem State.storeBlock_klen (s : State) (addr : Nat) : (s.storeBlock addr).klen = s.klen := rfl
@[simp] theorem State.storeBlock_w (s : State) (addr : Nat) : (s.storeBlock addr).w = s.w := rfl
@[simp] theorem State.storeBlock_rcon (s : State) (addr : Nat) : (s.storeBlock addr).rcon = s.rcon := rfl
@[simp] theorem State.storeBlock_ready (s : State) (addr : Nat) : (s.storeBlock addr).ready = s.ready := rfl
@[simp] theorem State.storeBlock_mem (s : State) (addr : Nat) : (s.storeBlock addr).mem = memWrite s.mem addr s.dp.s.toList := rfl
@[simp] theorem State.storeBlock_inbox (s : State) (addr : Nat) : (s.storeBlock addr).inbox = s.inbox := rfl
@[simp] theorem State.storeBlock_outbox (s : State) (addr : Nat) : (s.storeBlock addr).outbox = s.outbox := rfl
@[simp] theorem State.storeBlock_rejected (s : State) (addr : Nat) : (s.storeBlock addr).rejected = s.rejected := rfl

/-! ## The derived round count -/

theorem State.nr_eq (s : State) : s.nr = s.klen.toNat / 4 + 6 := rfl

end Sys2Proof.Machine
end

