-- ==== Sys2Proof/Laws/Ops.lean ====
section
/-! SUPPORT. The laws of the memory operations and of raising a condition. -/
namespace Sys2Proof.Machine

/-! ## One byte of memory -/

@[simp] theorem Memory.read_nil (a : Nat) : Memory.read [] a = Memory.unwritten := rfl

theorem Memory.read_cons (x : Nat) (v : Byte) (m : Memory) (a : Nat) :
    Memory.read ((x, v) :: m) a = if x = a then v else Memory.read m a := rfl

/-- An address below every listed one reads as unwritten. -/
theorem Memory.read_of_lt_all {m : Memory} {a : Nat} (h : ∀ c ∈ m, a < c.1) :
    Memory.read m a = Memory.unwritten := by
  induction m with
  | nil => rfl
  | cons c m ih =>
    have hc : c.1 ≠ a := by have := h c (by simp); omega
    simp only [Memory.read, hc, if_false]
    exact ih fun d hd => h d (by simp [hd])

theorem Memory.rising_cons {c : Host.Cell} {m : Memory} :
    Memory.rising (c :: m) = true ↔ (∀ d ∈ m, c.1 < d.1) ∧ Memory.rising m = true := by
  simp [Memory.rising]

theorem Memory.wf_iff {m : Memory} :
    Memory.wf m = true ↔ Memory.rising m = true ∧ ∀ c ∈ m, c.2 ≠ Memory.unwritten := by
  simp [Memory.wf]

theorem Memory.inSpace_iff {m : Memory} :
    Memory.inSpace m = true ↔ ∀ c ∈ m, c.1 < Config.addrSpace := by
  simp [Memory.inSpace]

/-- A write lists no cell but the old ones and the written one. -/
theorem Memory.mem_write {m : Memory} {a : Nat} {v : Byte} {c : Host.Cell}
    (h : c ∈ Memory.write m a v) : c ∈ m ∨ (c = (a, v) ∧ v ≠ Memory.unwritten) := by
  induction m with
  | nil =>
    by_cases hv : v = Memory.unwritten
    · simp [Memory.write, hv] at h
    · simp only [Memory.write, hv, if_false, List.mem_singleton] at h
      exact .inr ⟨h, hv⟩
  | cons d m ih =>
    unfold Memory.write at h
    split_ifs at h with h1 hv h2 hv
    · exact .inl h
    · rcases List.mem_cons.1 h with h | h
      · exact .inr ⟨h, hv⟩
      · exact .inl h
    · exact .inl (List.mem_cons_of_mem _ h)
    · rcases List.mem_cons.1 h with h | h
      · exact .inr ⟨h, hv⟩
      · exact .inl (List.mem_cons_of_mem _ h)
    · rcases List.mem_cons.1 h with h | h
      · exact .inl (by simp [h])
      · rcases ih h with h | h
        · exact .inl (List.mem_cons_of_mem _ h)
        · exact .inr h

theorem Memory.write_rising {m : Memory} (a : Nat) (v : Byte) (h : Memory.rising m = true) :
    Memory.rising (Memory.write m a v) = true := by
  induction m with
  | nil => by_cases hv : v = Memory.unwritten <;> simp [Memory.write, Memory.rising, hv]
  | cons d m ih =>
    obtain ⟨hd, hm⟩ := Memory.rising_cons.1 h
    unfold Memory.write
    split_ifs with h1 hv h2 hv
    · exact h
    · refine Memory.rising_cons.2 ⟨fun e he => ?_, h⟩
      rcases List.mem_cons.1 he with rfl | he
      · exact h1
      · exact Nat.lt_trans h1 (hd e he)
    · exact hm
    · exact Memory.rising_cons.2 ⟨fun e he => by have := hd e he; simp only; omega, hm⟩
    · refine Memory.rising_cons.2 ⟨fun e he => ?_, ih hm⟩
      rcases Memory.mem_write he with he | ⟨rfl, -⟩
      · exact hd e he
      · simp only; omega

/-- Every write keeps the canonical form. -/
theorem Memory.write_wf {m : Memory} (a : Nat) (v : Byte) (h : Memory.wf m = true) :
    Memory.wf (Memory.write m a v) = true := by
  obtain ⟨hr, hn⟩ := Memory.wf_iff.1 h
  refine Memory.wf_iff.2 ⟨Memory.write_rising a v hr, fun c hc => ?_⟩
  rcases Memory.mem_write hc with hc | ⟨rfl, hv⟩
  · exact hn c hc
  · exact hv

theorem Memory.write_inSpace {m : Memory} {a : Nat} (v : Byte) (ha : a < Config.addrSpace)
    (h : Memory.inSpace m = true) : Memory.inSpace (Memory.write m a v) = true := by
  refine Memory.inSpace_iff.2 fun c hc => ?_
  rcases Memory.mem_write hc with hc | ⟨rfl, -⟩
  · exact Memory.inSpace_iff.1 h c hc
  · exact ha

/-- "a read returns the last value written" (20_memory.md R59), and a write changes no other byte
(R52). This holds of every list of cells whose addresses rise. -/
theorem Memory.read_write_of_rising {m : Memory} (h : Memory.rising m = true) (a b : Nat) (v : Byte) :
    (Memory.write m a v).read b = if a = b then v else m.read b := by
  induction m with
  | nil =>
    by_cases hv : v = Memory.unwritten <;> by_cases hab : a = b <;>
      simp [Memory.write, Memory.read, hv, hab]
  | cons d m ih =>
    obtain ⟨x, w⟩ := d
    obtain ⟨hd, hm⟩ := Memory.rising_cons.1 h
    rcases Nat.lt_trichotomy a x with hlt | rfl | hgt
    · have hx : x ≠ a := by omega
      have hread : Memory.read m a = Memory.unwritten :=
        Memory.read_of_lt_all fun c hc => Nat.lt_trans hlt (hd c hc)
      by_cases hv : v = Memory.unwritten <;> by_cases hab : a = b
      · subst hab; simp [Memory.write, hlt, hv, Memory.read, hx, hread]
      · simp [Memory.write, hlt, hv, hab]
      · subst hab; simp [Memory.write, hlt, hv, Memory.read]
      · simp [Memory.write, hlt, hv, Memory.read, hab]
    · have hread : Memory.read m a = Memory.unwritten := Memory.read_of_lt_all hd
      by_cases hv : v = Memory.unwritten <;> by_cases hab : a = b
      · subst hab; simp [Memory.write, hv, hread]
      · simp [Memory.write, hv, Memory.read, hab]
      · subst hab; simp [Memory.write, hv, Memory.read]
      · simp [Memory.write, hv, Memory.read, hab]
    · have h1 : ¬ a < x := by omega
      have h2 : a ≠ x := by omega
      by_cases hxb : x = b
      · subst hxb
        simp [Memory.write, h1, h2, Memory.read]
      · simp [Memory.write, h1, h2, Memory.read, hxb, ih hm]

theorem Memory.rising_of_wf {m : Memory} (h : Memory.wf m = true) : Memory.rising m = true :=
  (Memory.wf_iff.1 h).1

/-! ## `MemRead` and `MemWrite` -/

@[simp] theorem memRead_length (m : Memory) (addr n : Nat) : (memRead m addr n).length = n := by
  simp [memRead]

theorem memRead_getD (m : Memory) (addr n k : Nat) (h : k < n) :
    (memRead m addr n).getD k 0 = m.read (addr + k) := by
  simp [memRead, h]

@[simp] theorem memWrite_nil (m : Memory) (addr : Nat) : memWrite m addr [] = m := rfl

theorem memWrite_cons (m : Memory) (addr : Nat) (b : Byte) (bs : List Byte) :
    memWrite m addr (b :: bs) = memWrite (m.write addr b) (addr + 1) bs := rfl

/-- `MemWrite` keeps the canonical form. -/
theorem memWrite_wf {m : Memory} (addr : Nat) (v : List Byte) (h : m.wf = true) :
    (memWrite m addr v).wf = true := by
  induction v generalizing m addr with
  | nil => exact h
  | cons b bs ih => exact ih _ (Memory.write_wf addr b h)

/-- `MemWrite` inside the address space lists only addresses that exist. -/
theorem memWrite_inSpace {m : Memory} {addr : Nat} {v : List Byte}
    (hv : addr + v.length ≤ Config.addrSpace) (h : m.inSpace = true) :
    (memWrite m addr v).inSpace = true := by
  induction v generalizing m addr with
  | nil => exact h
  | cons b bs ih =>
    rw [List.length_cons] at hv
    exact ih (by omega) (Memory.write_inSpace b (by omega) h)

/-- Every byte after a `MemWrite`: the written ones and all others (20_memory.md R52). -/
theorem memWrite_read {m : Memory} (h : m.wf = true) (addr : Nat) (v : List Byte) (a : Nat) :
    (memWrite m addr v).read a =
      if addr ≤ a ∧ a < addr + v.length then v.getD (a - addr) 0 else m.read a := by
  induction v generalizing m addr with
  | nil =>
    have : ¬ (addr ≤ a ∧ a < addr + 0) := by omega
    simp only [memWrite_nil, List.length_nil, this, if_false]
  | cons b bs ih =>
    rw [memWrite_cons, ih (Memory.write_wf addr b h),
      Memory.read_write_of_rising (Memory.rising_of_wf h), List.length_cons]
    by_cases ha : addr = a
    · subst ha
      have h1 : ¬ (addr + 1 ≤ addr ∧ addr < addr + 1 + bs.length) := by omega
      have h2 : addr ≤ addr ∧ addr < addr + (bs.length + 1) := by omega
      simp only [h1, h2, if_true, if_false, and_self, Nat.sub_self, List.getD_cons_zero]
    · by_cases hin : addr + 1 ≤ a ∧ a < addr + 1 + bs.length
      · have h2 : addr ≤ a ∧ a < addr + (bs.length + 1) := by omega
        have h3 : a - addr = (a - (addr + 1)) + 1 := by omega
        rw [if_pos hin, if_pos h2, h3, List.getD_cons_succ]
      · have h2 : ¬ (addr ≤ a ∧ a < addr + (bs.length + 1)) := by omega
        rw [if_neg hin, if_neg ha, if_neg h2]

/-! ## Conditions -/

/-- Raising a condition: the status byte is answered and nothing else changes
(60_exceptions.md R225, R226). -/
theorem raise_eq (c : Condition) (s : State) :
    raise c s = .next { s with outbox := s.outbox ++ [[Condition.code c]] } := rfl

/-- Raising a condition always gives a next state, and says which. -/
theorem raise_next {c : Condition} {s t : State} (h : raise c s = .next t) :
    t = s.respond (.condition c) := by
  cases h; rfl

end Sys2Proof.Machine
end

