-- ==== Sys2Proof/Laws/Operands.lean ====
section
/-! SUPPORT. The laws of the operand checks: what each says, and what the gates (admitted ranges, a
ready core, an accepted transfer) can do with the command behind them. -/
namespace Sys2Proof.Machine

/-! ## Parameters -/

theorem addrSpace_eq : Config.addrSpace = 2 ^ 32 := rfl

theorem maxLen_eq : Config.maxLen = 2 ^ 32 - 16 := rfl

/-! ## Key operands -/

theorem legalKeyLength_iff {klen : Byte} :
    legalKeyLength klen = true ↔ klen = 16 ∨ klen = 24 ∨ klen = 32 := by
  simp [legalKeyLength, or_assoc]

theorem initKeyFits_iff {klen : Byte} {key : List Byte} :
    initKeyFits klen key = true ↔ key = [] ∨ key.length = klen.toNat := by
  simp [initKeyFits]

theorem setKeyFits_iff {klen : Byte} {key : List Byte} :
    setKeyFits klen key = true ↔ key.length = klen.toNat := by
  simp [setKeyFits]

/-- A legal key length as a number. -/
theorem toNat_of_legal {klen : Byte} (h : legalKeyLength klen = true) :
    klen.toNat = 16 ∨ klen.toNat = 24 ∨ klen.toNat = 32 := by
  rcases legalKeyLength_iff.1 h with rfl | rfl | rfl <;> decide

/-- The key that INIT stores has the length the tag says (40_key_management.md R101 step 5). -/
theorem initKey_length {klen : Byte} {key : List Byte} (h : legalKeyLength klen = true) :
    (initKey klen key (zeros Config.keyStoreBytes)).length = klen.toNat := by
  unfold initKey
  split
  · assumption
  · rcases toNat_of_legal h with h | h | h <;>
      simp [zeros, Config.keyStoreBytes, h]

/-! ## Lengths -/

theorem encryptedLength_mod (n : Nat) : encryptedLength n % 16 = 0 := by
  unfold encryptedLength; omega

theorem encryptedLength_div (n : Nat) : encryptedLength n / 16 = (n + 15) / 16 := by
  unfold encryptedLength; omega

theorem le_encryptedLength (n : Nat) : n ≤ encryptedLength n := by
  unfold encryptedLength; omega

theorem encryptedLength_of_mod {n : Nat} (h : n % 16 = 0) : encryptedLength n = n := by
  unfold encryptedLength; omega

@[simp] theorem zeros_length (n : Nat) : (zeros n).length = n := by simp [zeros]

@[simp] theorem padTail_length {mode : Config.PadMode} {tail : List Byte} (h : tail.length ≤ 16) :
    (padTail mode tail).length = 16 := by
  cases mode
  simp only [padTail, List.length_append, zeros_length]
  omega

/-! ## Ranges -/

theorem Span.fits_iff {x : Span} : x.fits = true ↔ x.base + x.size ≤ Config.addrSpace := by
  simp [Span.fits]

/-- Two ranges meet exactly when they share an address. -/
theorem Span.meets_iff {x y : Span} :
    x.meets y = true ↔
      ∃ a, (x.base ≤ a ∧ a < x.base + x.size) ∧ (y.base ≤ a ∧ a < y.base + y.size) := by
  simp only [Span.meets, Bool.and_eq_true, decide_eq_true_eq]
  constructor
  · rintro ⟨⟨⟨hx, hy⟩, h1⟩, h2⟩
    exact ⟨max x.base y.base, by omega, by omega⟩
  · rintro ⟨a, ⟨h1, h2⟩, h3, h4⟩
    omega

theorem aliasAdmitted_iff {x y : Span} :
    aliasAdmitted x y = true ↔
      x.base = y.base ∨
        ∀ a, ¬ ((x.base ≤ a ∧ a < x.base + x.size) ∧ (y.base ≤ a ∧ a < y.base + y.size)) := by
  rw [aliasAdmitted, Bool.or_eq_true, Bool.not_eq_true', ← Bool.not_eq_true, Span.meets_iff,
    not_exists, beq_iff_eq, or_comm]

theorem State.rejects_iff {s : State} {x : Span} :
    s.rejects x = true ↔ ∃ hole ∈ s.rejected, ∃ a,
      (hole.base ≤ a ∧ a < hole.base + hole.size) ∧ (x.base ≤ a ∧ a < x.base + x.size) := by
  simp only [State.rejects, List.any_eq_true, Span.meets_iff]

/-! ## The gates -/

/-- The ranges are ones the spec gives an outcome. -/
def Admitted (input output : Span) : Prop :=
  input.fits = true ∧ output.fits = true ∧ aliasAdmitted input output = true

/-- Admitted ranges in the terms of 20_memory.md R60 and R61. -/
theorem admitted_iff {src size dst size' : Nat} :
    Admitted ⟨src, size⟩ ⟨dst, size'⟩ ↔
      src + size ≤ 2 ^ 32 ∧ dst + size' ≤ 2 ^ 32 ∧
        (src = dst ∨ ∀ a, ¬ ((src ≤ a ∧ a < src + size) ∧ (dst ≤ a ∧ a < dst + size'))) := by
  unfold Admitted
  rw [Span.fits_iff, Span.fits_iff, aliasAdmitted_iff, addrSpace_eq]

theorem whenInSpace_of_overflow {input output : Span}
    (h : ¬ (input.fits = true ∧ output.fits = true)) (k : Result) :
    whenInSpace input output k = .refused .addressOverflow := by
  rw [whenInSpace, if_pos]
  rw [Bool.not_eq_true', ← Bool.not_eq_true, Bool.and_eq_true]
  exact h

theorem whenInSpace_of_fits {input output : Span} (h : input.fits = true ∧ output.fits = true)
    (k : Result) : whenInSpace input output k = k := by
  simp [whenInSpace, h.1, h.2]

/-- The address gate lets a command through exactly on ranges inside the address space. -/
theorem whenInSpace_next {input output : Span} {k : Result} {t : State} :
    whenInSpace input output k = .next t ↔
      (input.fits = true ∧ output.fits = true) ∧ k = .next t := by
  unfold whenInSpace
  cases input.fits <;> cases output.fits <;> simp

theorem whenAliasAdmitted_of_overlap {input output : Span}
    (h : ¬ aliasAdmitted input output = true) (k : Result) :
    whenAliasAdmitted input output k = .refused .partialOverlap := by
  rw [whenAliasAdmitted, if_pos (by simpa using h)]

theorem whenAliasAdmitted_of_admitted {input output : Span} (h : aliasAdmitted input output = true)
    (k : Result) : whenAliasAdmitted input output k = k := by
  simp [whenAliasAdmitted, h]

/-- The overlap gate lets a command through exactly on ranges whose overlap is admitted. -/
theorem whenAliasAdmitted_next {input output : Span} {k : Result} {t : State} :
    whenAliasAdmitted input output k = .next t ↔
      aliasAdmitted input output = true ∧ k = .next t := by
  unfold whenAliasAdmitted
  cases aliasAdmitted input output <;> simp

theorem admitRanges_of_admitted {input output : Span} (h : Admitted input output) (k : Result) :
    admitRanges input output k = k := by
  rw [admitRanges, whenInSpace_of_fits ⟨h.1, h.2.1⟩, whenAliasAdmitted_of_admitted h.2.2]

theorem admitRanges_of_overflow {input output : Span}
    (h : ¬ (input.fits = true ∧ output.fits = true)) (k : Result) :
    admitRanges input output k = .refused .addressOverflow :=
  whenInSpace_of_overflow h _

theorem admitRanges_of_overlap {input output : Span}
    (h : input.fits = true ∧ output.fits = true) (ha : ¬ aliasAdmitted input output = true) (k : Result) :
    admitRanges input output k = .refused .partialOverlap := by
  rw [admitRanges, whenInSpace_of_fits h, whenAliasAdmitted_of_overlap ha]

/-- The first gate lets a command through exactly on admitted ranges. -/
theorem admitRanges_next {input output : Span} {k : Result} {t : State} :
    admitRanges input output k = .next t ↔ Admitted input output ∧ k = .next t := by
  rw [admitRanges, whenInSpace_next, whenAliasAdmitted_next, Admitted, and_assoc, and_assoc, and_assoc]

theorem whenReady_of_ready {s : State} (h : s.ready = true) (k : Result) : whenReady s k = k := by
  simp [whenReady, h]

theorem whenReady_of_unready {s : State} (h : s.ready = false) (k : Result) :
    whenReady s k = raise .notReady s := by
  simp [whenReady, h]

/-- The second gate: the command behind it on a ready core, `NotReady` on an unready one. -/
theorem whenReady_next {s t : State} {k : Result} :
    whenReady s k = .next t ↔
      (s.ready = true ∧ k = .next t) ∨ (s.ready = false ∧ t = s.respond (.condition .notReady)) := by
  cases h : s.ready
  · rw [whenReady_of_unready h]
    constructor
    · exact fun e => .inr ⟨rfl, raise_next e⟩
    · rintro (⟨h, -⟩ | ⟨-, rfl⟩)
      · cases h
      · rfl
  · simp [whenReady_of_ready h]

theorem whenAccepted_of_rejected {s : State} {input output : Span}
    (h : s.rejects input = true ∨ s.rejects output = true) (k : Result) :
    whenAccepted s input output k = .fault .accessRejected := by
  rw [whenAccepted, if_pos (by simpa using h)]

/-- The third gate lets a transfer through exactly when the platform accepts both ranges. -/
theorem whenAccepted_next {s t : State} {input output : Span} {k : Result} :
    whenAccepted s input output k = .next t ↔
      (s.rejects input = false ∧ s.rejects output = false) ∧ k = .next t := by
  unfold whenAccepted
  cases s.rejects input <;> cases s.rejects output <;> simp

end Sys2Proof.Machine
end

