-- ==== Sys2Proof/Laws/Exec.lean ====
section
/-! SUPPORT. What the buffer sequencer leaves alone, and one inversion lemma per command: the only
next states its meaning can give. -/
namespace Sys2Proof.Machine

/-! ## The buffer sequencer -/

/-- Two states that agree on everything but `S`, `T` and memory. -/
structure State.SameButTransfer (s t : State) : Prop where
  key : t.key = s.key
  klen : t.klen = s.klen
  w : t.w = s.w
  rcon : t.rcon = s.rcon
  ready : t.ready = s.ready
  inbox : t.inbox = s.inbox
  outbox : t.outbox = s.outbox
  rejected : t.rejected = s.rejected

theorem State.SameButTransfer.refl (s : State) : s.SameButTransfer s :=
  ⟨rfl, rfl, rfl, rfl, rfl, rfl, rfl, rfl⟩

theorem State.SameButTransfer.trans {s t u : State} (h : s.SameButTransfer t)
    (h' : t.SameButTransfer u) : s.SameButTransfer u :=
  ⟨h'.key.trans h.key, h'.klen.trans h.klen, h'.w.trans h.w, h'.rcon.trans h.rcon,
    h'.ready.trans h.ready, h'.inbox.trans h.inbox, h'.outbox.trans h.outbox,
    h'.rejected.trans h.rejected⟩

/-- Such a state is the other one with its `S`, `T` and memory replaced. -/
theorem State.SameButTransfer.eq {s t : State} (h : s.SameButTransfer t) :
    t = { s with dp := t.dp, mem := t.mem } := by
  cases t
  obtain ⟨h1, h2, h3, h4, h5, h6, h7, h8⟩ := h
  simp_all

/-- A fold of turns keeps what every turn keeps. -/
theorem foldl_keeps {α β : Type} {P : α → α → Prop} (refl : ∀ x, P x x)
    (trans : ∀ {x y z}, P x y → P y z → P x z) {f : α → β → α} (h : ∀ x b, P x (f x b))
    (l : List β) (x : α) : P x (l.foldl f x) := by
  induction l generalizing x with
  | nil => exact refl x
  | cons b l ih => exact trans (h x b) (ih _)

theorem encStep_keeps (src dst : Nat) (s : State) (b : Nat) : s.SameButTransfer (encStep src dst s b) := by
  constructor <;> simp [encStep]

theorem encTail_keeps (src dst nfull r : Nat) (s : State) :
    s.SameButTransfer (encTail src dst nfull r s) := by
  constructor <;> simp [encTail]

theorem decStep_keeps (src dst : Nat) (s : State) (b : Nat) : s.SameButTransfer (decStep src dst s b) := by
  constructor <;> simp [decStep]

/-- ENC's work changes `S`, `T` and memory only. -/
theorem encRun_keeps (src len dst : Nat) (s : State) : s.SameButTransfer (encRun src len dst s) := by
  have h := foldl_keeps State.SameButTransfer.refl State.SameButTransfer.trans
    (encStep_keeps src dst) (List.range (len / 16)) s
  unfold encRun
  dsimp only
  split
  · exact h
  · exact h.trans (encTail_keeps _ _ _ _ _)

/-- DEC's work changes `S`, `T` and memory only. -/
theorem decRun_keeps (src len dst : Nat) (s : State) : s.SameButTransfer (decRun src len dst s) :=
  foldl_keeps State.SameButTransfer.refl State.SameButTransfer.trans (decStep_keeps src dst) _ s

theorem encRun_wf (src len dst : Nat) {s : State} (h : s.mem.wf = true) :
    (encRun src len dst s).mem.wf = true := by
  have hloop := foldl_keeps (P := fun x y : State => x.mem.wf = true → y.mem.wf = true)
    (fun _ => id) (fun h h' => h' ∘ h) (f := encStep src dst)
    (fun x b hx => by rw [encStep, State.storeBlock_mem]; exact memWrite_wf _ _ hx)
    (List.range (len / 16)) s h
  unfold encRun
  dsimp only
  split
  · exact hloop
  · rw [encTail, State.storeBlock_mem]
    exact memWrite_wf _ _ hloop

theorem decRun_wf (src len dst : Nat) {s : State} (h : s.mem.wf = true) :
    (decRun src len dst s).mem.wf = true :=
  foldl_keeps (P := fun x y : State => x.mem.wf = true → y.mem.wf = true)
    (fun _ => id) (fun h h' => h' ∘ h) (f := decStep src dst)
    (fun x b hx => by rw [decStep, State.storeBlock_mem]; exact memWrite_wf _ _ hx)
    (List.range (len / 16)) s h

/-! ## What each command can do -/

theorem execInit_eq (klen : Byte) (key : List Byte) (s : State) :
    execInit klen key s = .next
      (if legalKeyLength klen && initKeyFits klen key then
        (s.discardKey.installKey klen (initKey klen key (zeros Config.keyStoreBytes))).respond (.ok [])
      else s.discardKey.respond (.condition .unsupportedKeyLength)) := by
  unfold execInit
  dsimp only
  split <;> rfl

theorem execSetKey_eq (klen : Byte) (key : List Byte) (s : State) :
    execSetKey klen key s = .next
      (if legalKeyLength klen && setKeyFits klen key then (s.installKey klen key).respond (.ok [])
      else s.respond (.condition .unsupportedKeyLength)) := by
  unfold execSetKey
  split <;> rfl

theorem execEncBlk_eq (blk : Block) (s : State) :
    execEncBlk blk s = .next
      (if s.ready then (s.encryptOne blk).respondBlock else s.respond (.condition .notReady)) := by
  unfold execEncBlk whenReady
  split <;> rfl

theorem execDecBlk_eq (blk : Block) (s : State) :
    execDecBlk blk s = .next
      (if s.ready then (s.decryptOne blk).respondBlock else s.respond (.condition .notReady)) := by
  unfold execDecBlk whenReady
  split <;> rfl

theorem execEncLen_next {n : Nat} {s t : State} :
    execEncLen n s = .next t ↔
      n ≤ Config.maxLen ∧ t = s.respond (.ok (leBytes 4 (encryptedLength n))) := by
  unfold execEncLen
  split
  · simp only [reduceCtorEq, false_iff]; omega
  · simp only [Host.Outcome.next.injEq]
    constructor
    · rintro rfl; exact ⟨by omega, rfl⟩
    · rintro ⟨-, rfl⟩; rfl

/-- The only next states of ENC: `NotReady`, or the whole transfer. -/
theorem execEnc_next {src len dst : Nat} {s t : State} :
    execEnc src len dst s = .next t ↔
      (len ≤ Config.maxLen ∧ Admitted (inputSpan src len) (encOutputSpan dst len)) ∧
        ((s.ready = true ∧
            (s.rejects (inputSpan src len) = false ∧ s.rejects (encOutputSpan dst len) = false) ∧
            t = (encRun src len dst s).respond (.ok [])) ∨
          (s.ready = false ∧ t = s.respond (.condition .notReady))) := by
  unfold execEnc
  split
  · simp only [reduceCtorEq, false_iff]; omega
  · rw [admitRanges_next, whenReady_next, whenAccepted_next, Host.Outcome.next.injEq,
      eq_comm (b := t)]
    have : len ≤ Config.maxLen := by omega
    simp only [this, true_and]

/-- The only next states of DEC: `InvalidInput`, `NotReady`, or the whole transfer. -/
theorem execDec_next {src len dst : Nat} {s t : State} :
    execDec src len dst s = .next t ↔
      ((inputSpan src len).fits = true ∧ (decOutputSpan dst len).fits = true) ∧
        ((len % 16 ≠ 0 ∧ t = s.respond (.condition .invalidInput)) ∨
          ((len % 16 = 0 ∧ aliasAdmitted (inputSpan src len) (decOutputSpan dst len) = true) ∧
            ((s.ready = true ∧
                (s.rejects (inputSpan src len) = false ∧ s.rejects (decOutputSpan dst len) = false) ∧
                t = (decRun src len dst s).respond (.ok [])) ∨
              (s.ready = false ∧ t = s.respond (.condition .notReady))))) := by
  unfold execDec
  rw [whenInSpace_next]
  refine and_congr_right fun _ => ?_
  by_cases h : len % 16 = 0
  · have h' : ¬ (len ≠ 0 ∧ len % 16 ≠ 0) := fun hh => hh.2 h
    rw [if_neg h', whenAliasAdmitted_next, whenReady_next, whenAccepted_next, Host.Outcome.next.injEq,
      eq_comm (b := t)]
    simp only [h, ne_eq, not_true_eq_false, false_and, true_and, false_or]
  · have h' : len ≠ 0 ∧ len % 16 ≠ 0 := ⟨fun hh => h (by omega), h⟩
    rw [if_pos h']
    simp only [h, ne_eq, not_false_eq_true, true_and, false_and, or_false]
    exact ⟨raise_next, fun e => by rw [e]; rfl⟩

end Sys2Proof.Machine
end

