-- ==== Sys2Proof/Laws/PerInstr.lean ====
section
/-! SUPPORT. The statements made per instruction. Family `EncodedLength`: the packet of every command
begins with its opcode byte and has a length that the opcode's format gives
(30_encoding.md R70, R72 to R77). -/
namespace Sys2Proof.Laws.EncodedLength

/-- The opcode of a command. -/
def opcode : Instr → Opcode
  | .init _ _ => .init
  | .setKey _ _ => .setKey
  | .encBlk _ => .encBlk
  | .decBlk _ => .decBlk
  | .encLen _ => .encLen
  | .enc _ _ _ => .enc
  | .dec _ _ _ => .dec

/-- The packet begins with the byte that selects the command, and its length fits the format. -/
def Statement (i : Instr) : Prop :=
  ((encode i).head?.bind opcodeOf) = some (opcode i) ∧
    (opcode i).format.fits (encode i).length = true

theorem init (klen : Byte) (key : List Byte) : Statement (.init klen key) :=
  ⟨rfl, by simp [encode, opcode, Opcode.format, Format.fits, Format.minLength]⟩

theorem setKey (klen : Byte) (key : List Byte) : Statement (.setKey klen key) :=
  ⟨rfl, by simp [encode, opcode, Opcode.format, Format.fits, Format.minLength]⟩

theorem encBlk (blk : Block) : Statement (.encBlk blk) :=
  ⟨rfl, by simp [encode, opcode, Opcode.format, Format.fits, Format.minLength]⟩

theorem decBlk (blk : Block) : Statement (.decBlk blk) :=
  ⟨rfl, by simp [encode, opcode, Opcode.format, Format.fits, Format.minLength]⟩

theorem encLen (n : Nat) : Statement (.encLen n) :=
  ⟨rfl, by simp [encode, opcode, Opcode.format, Format.fits, Format.minLength]⟩

theorem enc (src len dst : Nat) : Statement (.enc src len dst) :=
  ⟨rfl, by simp [encode, opcode, Opcode.format, Format.fits, Format.minLength]⟩

theorem dec (src len dst : Nat) : Statement (.dec src len dst) :=
  ⟨rfl, by simp [encode, opcode, Opcode.format, Format.fits, Format.minLength]⟩

end Sys2Proof.Laws.EncodedLength
end

