-- ==== Sys2Proof/Laws/Step.lean ====
section
/-! SUPPORT. The laws of the port and of the step: one equation per thing the host does. -/
namespace Sys2Proof.Machine

theorem serve_of_instr {p : Packet} {i : Instr} (h : decode p = .instr i) (s : State) :
    serve p s = exec i s := by
  simp [serve, h]

theorem serve_of_illegal {p : Packet} {why : IllegalPacket} (h : decode p = .illegal why) (s : State) :
    serve p s = raise .illegalCommand s := by
  simp [serve, h]

theorem step_of_idle {s : State} (h : s.inbox = []) : step s = .next s := by
  simp [step, h]

theorem step_of_event {s : State} {e : HostEvent} {rest : List HostEvent} (h : s.inbox = e :: rest) :
    step s = handle e { s with inbox := rest } := by
  simp [step, h]

/-- The only next states of a host write. -/
theorem hostStore_next {addr : Nat} {bytes : List Byte} {s t : State} :
    hostStore addr bytes s = .next t ↔
      addr + bytes.length ≤ Config.addrSpace ∧ { s with mem := memWrite s.mem addr bytes } = t := by
  unfold hostStore
  split <;> simp_all

/-- The only next states of a command cut short: the command has an outcome, the core is at its reset
state, and at most the output range is overwritten. -/
theorem cutByReset_next {p : Packet} {fill : List Byte} {s t : State} :
    cutByReset p fill s = .next t ↔
      (∃ u, serve p s = .next u) ∧
        (let out := writtenSpan (decode p) s
         State.resetCore { s with mem := memWrite s.mem out.base (fill.take out.size) }) = t := by
  unfold cutByReset
  cases serve p s <;> simp

end Sys2Proof.Machine
end

