-- ==== Sys2Proof/Tests/Slice0.lean ====
section
/-! SUPPORT. Tests of the model. Expected results come from the spec's worked examples and from
95_test_vectors.md. The second half shows, for each statement with hypotheses, a state and operands
that meet them. -/
namespace Sys2Proof.Tests
open Sys2Proof Sys2Proof.Machine

/-! ## Helpers -/

/-- The next state of an outcome, if it is one. -/
def nextState (r : Result) : Option State :=
  match r with
  | .next t => some t
  | .fault _ => none
  | .refused _ => none

/-- The last response of the next state. -/
def response (r : Result) : Option Packet := (nextState r).bind fun t => t.outbox.getLast?

/-- Bytes of memory of the next state. -/
def memoryOf (r : Result) (addr n : Nat) : Option (List Byte) :=
  (nextState r).map fun t => memRead t.mem addr n

/-- The refusal of an outcome, if it is one. -/
def refusal (r : Result) : Option Refusal :=
  match r with
  | .next _ => none
  | .fault _ => none
  | .refused why => some why

/-- The key `00 01 02 ...` of `n` bytes. -/
def countingKey (n : Nat) : List Byte := (List.range n).map fun k => BitVec.ofNat 8 k

/-- A core that holds the 16-byte counting key and its schedule. -/
def keyed : State :=
  { State.reset with
    ready := true, klen := 16, key := countingKey 16, w := (keyExpand (countingKey 16)).w }

/-- A ready core whose schedule is all zero bytes; enough where no block is computed. -/
def ready : State :=
  { State.reset with ready := true, klen := 16, key := zeros 16, w := zeros 176 }

/-- The plain block of V1. -/
def plain : List Byte :=
  [0x00, 0x11, 0x22, 0x33, 0x44, 0x55, 0x66, 0x77, 0x88, 0x99, 0xaa, 0xbb, 0xcc, 0xdd, 0xee, 0xff]

/-- The cipher block of V1. -/
def cipher : List Byte :=
  [0x69, 0xc4, 0xe0, 0xd8, 0x6a, 0x7b, 0x04, 0x30, 0xd8, 0xcd, 0xb7, 0x80, 0x70, 0xb4, 0xc5, 0x5a]

/-! ## Well-formedness refuses numbers that no field holds (30_encoding.md R73) -/

theorem test_illformed_encLen : ¬ WellFormed (.encLen 0x100000000) := by decide
theorem test_illformed_enc_src : ¬ WellFormed (.enc 0x100000000 0 0) := by decide
theorem test_illformed_enc_len : ¬ WellFormed (.enc 0 0x100000000 0) := by decide
theorem test_illformed_enc_dst : ¬ WellFormed (.enc 0 0 0x100000000) := by decide
theorem test_illformed_dec_src : ¬ WellFormed (.dec 0x100000000 0 0) := by decide
theorem test_illformed_dec_len : ¬ WellFormed (.dec 0 0x100000000 0) := by decide
theorem test_illformed_dec_dst : ¬ WellFormed (.dec 0 0 0x100000000) := by decide

/-! ## Decoding words written out from 30_encoding.md R70 and R74 to R77 -/

theorem test_decode_init_without_key : decode [0x01, 0x20] = .instr (.init 32 []) := by decide

theorem test_decode_init_with_key :
    decode [0x01, 0x10, 0xa0, 0xa1] = .instr (.init 16 [0xa0, 0xa1]) := by decide

theorem test_decode_setKey : decode (0x02 :: 0x10 :: countingKey 16) =
    .instr (.setKey 16 (countingKey 16)) := by decide

theorem test_decode_encBlk : decode (0x10 :: plain) = .instr (.encBlk (blockOfBytes plain)) := by
  decide

theorem test_decode_decBlk : decode (0x11 :: cipher) = .instr (.decBlk (blockOfBytes cipher)) := by
  decide

theorem test_decode_encLen :
    decode [0x20, 0x78, 0x56, 0x34, 0x12] = .instr (.encLen 0x12345678) := by decide

theorem test_decode_enc :
    decode [0x21, 0x04, 0x03, 0x02, 0x01, 0x14, 0x13, 0x12, 0x11, 0x24, 0x23, 0x22, 0x21] =
      .instr (.enc 0x01020304 0x11121314 0x21222324) := by decide

theorem test_decode_dec :
    decode [0x22, 0x04, 0x03, 0x02, 0x01, 0x14, 0x13, 0x12, 0x11, 0x24, 0x23, 0x22, 0x21] =
      .instr (.dec 0x01020304 0x11121314 0x21222324) := by decide

/-- 95_test_vectors.md V50: the reserved opcodes it names. -/
theorem test_decode_reserved :
    [0x00, 0x03, 0x12, 0x23, 0x7f, 0xff].map (fun op : Byte => decode [op, 0x00]) =
      [0x00, 0x03, 0x12, 0x23, 0x7f, 0xff].map (fun op => .illegal (.reservedOpcode op)) := by decide

/-- 95_test_vectors.md V50: the malformed packets it names. -/
theorem test_decode_malformed :
    decode [] = .illegal .emptyPacket ∧
    decode [0x01] = .illegal (.wrongLength .init 1) ∧
    decode (0x10 :: zeros 15) = .illegal (.wrongLength .encBlk 16) ∧
    decode (0x10 :: zeros 17) = .illegal (.wrongLength .encBlk 18) ∧
    decode [0x20, 0x11, 0x00, 0x00] = .illegal (.wrongLength .encLen 4) ∧
    decode (0x21 :: zeros 11) = .illegal (.wrongLength .enc 12) := by decide

/-- The rows of opcode_table.json, with operand bytes of zero. -/
theorem test_decodeTableWord :
    [0x01, 0x02, 0x10, 0x11, 0x20, 0x21, 0x22].map (decodeTableWord 8) =
      [some (.init 0 []), some (.setKey 0 []), some (.encBlk (blockOfBytes (zeros 16))),
        some (.decBlk (blockOfBytes (zeros 16))), some (.encLen 0), some (.enc 0 0 0),
        some (.dec 0 0 0)] := by decide

theorem test_withFetchWord :
    response (step (State.reset.withFetchWord 40 0x1120)) = some [0x00, 0x20, 0x00, 0x00, 0x00] := by
  decide

/-! ## Primitives, by the worked examples of files 41 and 43 -/

/-- 43_round_primitives.md R161, R162. -/
theorem test_rowShifts :
    (shiftRows (blockOfBytes (countingKey 16))).toList =
      [0x00, 0x05, 0x0a, 0x0f, 0x04, 0x09, 0x0e, 0x03, 0x08, 0x0d, 0x02, 0x07, 0x0c, 0x01, 0x06, 0x0b] ∧
    (invShiftRows (blockOfBytes (countingKey 16))).toList =
      [0x00, 0x0d, 0x0a, 0x07, 0x04, 0x01, 0x0e, 0x0b, 0x08, 0x05, 0x02, 0x0f, 0x0c, 0x09, 0x06, 0x03] := by
  decide +kernel

/-- 43_round_primitives.md R164, R166. -/
theorem test_columnMixes :
    (mixColumns (blockOfBytes [0xdb, 0x13, 0x53, 0x45, 0xd4, 0xbf, 0x5d, 0x30])).toList =
      [0x8e, 0x4d, 0xa1, 0xbc, 0x04, 0x66, 0x81, 0xe5] ++ zeros 8 ∧
    (invMixColumns (blockOfBytes [0x8e, 0x4d, 0xa1, 0xbc, 0x01, 0x00, 0x00, 0x00])).toList =
      [0xdb, 0x13, 0x53, 0x45, 0x0e, 0x09, 0x0d, 0x0b] ++ zeros 8 := by decide +kernel

/-- 43_round_primitives.md R172. -/
theorem test_subBytes :
    (subBytes (blockOfBytes [0x00, 0x10, 0x20, 0x30, 0x40, 0x50, 0x60, 0x70, 0x80, 0x90, 0xa0, 0xb0,
        0xc0, 0xd0, 0xe0, 0xf0])).toList =
      [0x63, 0xca, 0xb7, 0x04, 0x09, 0x53, 0xd0, 0x51, 0xcd, 0x60, 0xe0, 0xe7, 0xba, 0x70, 0xe1, 0x8c] := by
  decide +kernel

/-- 41_key_expansion.md R124. -/
theorem test_firstColumnOfAGroup :
    addRcon 0x01 (subColumn (rotateColumn #v[0x0c, 0x0d, 0x0e, 0x0f])) =
      #v[0xd6, 0xab, 0x76, 0xfe] := by decide +kernel

/-! ## Commands -/

/-- 40_key_management.md R101, worked example. -/
theorem test_init_key :
    (nextState (exec (.init 16 (countingKey 16)) State.reset)).map
        (fun t => (t.ready, t.klen, field t.w 16 16)) =
      some (true, 16, [0xd6, 0xaa, 0x74, 0xfd, 0xd2, 0xaf, 0x72, 0xfa, 0xda, 0xa6, 0x78, 0xf1,
        0xd6, 0xab, 0x76, 0xfe]) := by decide +kernel

/-- 95_test_vectors.md V50: INIT 20 leaves even a keyed core keyless. -/
theorem test_init_refused :
    (nextState (exec (.init 20 []) ready)).map (fun t => (t.ready, t.klen, t.key, t.outbox)) =
      some (false, 0, zeros 32, [[0x02]]) := by decide

/-- 40_key_management.md R103, worked example. -/
theorem test_setKey_longer_key :
    (nextState (exec (.setKey 24 (countingKey 24)) ready)).map
        (fun t => (t.ready, t.klen, t.nr, t.w.length, t.outbox)) =
      some (true, 24, 12, 208, [[0x00]]) := by decide +kernel

/-- 95_test_vectors.md V50: SETKEY 16 with 15 bytes changes nothing. -/
theorem test_setKey_refused :
    nextState (exec (.setKey 16 (countingKey 15)) ready) = some { ready with outbox := [[0x02]] } := by
  decide +kernel

/-- 95_test_vectors.md V1. -/
theorem test_encBlk :
    response (exec (.encBlk (blockOfBytes plain)) keyed) = some (0x00 :: cipher) := by decide +kernel

/-- 95_test_vectors.md V50. -/
theorem test_encBlk_not_ready :
    response (exec (.encBlk (blockOfBytes plain)) State.reset) = some [0x03] := by decide

/-- 95_test_vectors.md V1. -/
theorem test_decBlk :
    response (exec (.decBlk (blockOfBytes cipher)) keyed) = some (0x00 :: plain) := by decide +kernel

/-- 95_test_vectors.md V47: the last length that has a result. -/
theorem test_encLen_last :
    response (exec (.encLen 0xffffffef) State.reset) = some [0x00, 0xf0, 0xff, 0xff, 0xff] := by decide

/-- 95_test_vectors.md V47: the first length that has none. -/
theorem test_encLen_refused :
    refusal (exec (.encLen 0xfffffff1) State.reset) = some .lengthOverflow := by decide

/-- 95_test_vectors.md V40, the second block of P2: the bytes that stood in the output buffer have no
influence. -/
theorem test_enc_tail :
    memoryOf (exec (.enc 0x1000 1 0x2000)
        { keyed with mem := memWrite (memWrite [] 0x1000 [0x01]) 0x2000 (List.replicate 17 0xaa) })
        0x2000 17 =
      some [0xe3, 0x7c, 0xd3, 0x63, 0xdd, 0x7c, 0x87, 0xa0, 0x9a, 0xff, 0x0e, 0x3e, 0x60, 0xe0, 0x9c,
        0x82, 0xaa] := by decide +kernel

/-- 95_test_vectors.md V45. -/
theorem test_enc_empty :
    nextState (exec (.enc 0x1000 0 0x2000) ready) = some { ready with outbox := [[0x00]] } := by decide

/-- 95_test_vectors.md V1 in memory, in place as in V46. -/
theorem test_dec_in_place :
    memoryOf (exec (.dec 0x4000 16 0x4000) { keyed with mem := memWrite [] 0x4000 cipher })
      0x4000 16 = some plain := by decide +kernel

/-- 95_test_vectors.md V50: DEC 17 reports `InvalidInput`, whether ready or not; 44_buffer_api.md R205
step 1, "checked first", also where the named buffers would partly overlap. -/
theorem test_dec_invalid_input :
    nextState (exec (.dec 0x2000 17 0x3000) State.reset) =
      some { State.reset with outbox := [[0x01]] } ∧
    nextState (exec (.dec 0x2000 17 0x3000) ready) = some { ready with outbox := [[0x01]] } ∧
    nextState (exec (.dec 0 17 8) ready) = some { ready with outbox := [[0x01]] } := by
  decide +kernel

/-! ## Witnesses: the hypotheses of the statements can be met -/

theorem witness_wellFormed : WellFormed (.encLen 0xffffffff) ∧
    WellFormed (.enc 0xffffffff 0xffffffff 0xffffffff) ∧
    WellFormed (.dec 0xffffffff 0xffffffff 0xffffffff) ∧ WellFormed (.init 255 (zeros 40)) ∧
    WellFormed (.setKey 0 []) ∧ WellFormed (.encBlk (blockOfBytes plain)) ∧
    WellFormed (.decBlk (blockOfBytes plain)) := by decide

/-- For EncodeInvertsDecode. -/
theorem witness_decodes : decode [0x20, 0xff, 0xff, 0xff, 0xff] = .instr (.encLen 0xffffffff) := by
  decide

/-- For OpcodeMapIsWholeAndReservedOpcodesAreIllegal: the ends of each reserved range of R79. -/
theorem witness_reserved : ∀ op ∈ ([0x00, 0x03, 0x0f, 0x12, 0x1f, 0x23, 0xff] : List Byte),
    op ∉ ([0x01, 0x02, 0x10, 0x11, 0x20, 0x21, 0x22] : List Byte) := by decide

/-- For MalformedPacketsRaiseIllegalCommand: bodies one byte short, right, and one byte long. -/
theorem witness_lengths :
    ([0x01].length < 2 ∧ [0x01, 0x10].length = 2) ∧
    ((0x10 :: zeros 15).length ≠ 17 ∧ (0x10 :: zeros 16).length = 17 ∧
      (0x10 :: zeros 17).length ≠ 17) ∧
    ((0x20 :: zeros 3).length ≠ 5 ∧ (0x20 :: zeros 4).length = 5 ∧ (0x20 :: zeros 5).length ≠ 5) ∧
    ((0x21 :: zeros 11).length ≠ 13 ∧ (0x21 :: zeros 12).length = 13 ∧
      (0x21 :: zeros 13).length ≠ 13) := by decide

/-- For StepRunsTheDecodedCommand. -/
theorem witness_step_command :
    ({ ready with inbox := [.command (encode (.enc 0 16 16))] } : State).inbox =
      .command (encode (.enc 0 16 16)) :: [] ∧
    decode (encode (.enc 0 16 16)) = .instr (.enc 0 16 16) ∧ WellFormed (.enc 0 16 16) := by decide

/-- For StepAnswersIllegalPacketsWithIllegalCommand. -/
theorem witness_step_illegal :
    ({ ready with inbox := [.command [0x7f], .reset] } : State).inbox = .command [0x7f] :: [.reset] ∧
    decode [0x7f] = .illegal (.reservedOpcode 0x7f) := by decide

/-- For IdleStepsAndHostWrites: an empty inbox; a write that ends at the top of the address space. -/
theorem witness_idle_and_host_write :
    State.reset.inbox = [] ∧
    ({ ready with inbox := [.hostWrite 0xfffffffe [1, 2]] } : State).inbox =
      .hostWrite 0xfffffffe [1, 2] :: [] ∧
    0xfffffffe + ([1, 2] : List Byte).length ≤ 2 ^ 32 ∧ ready.mem.wf = true := by decide

/-- For MemReadAndMemWriteMoveExactlyTheirBytes: a memory in canonical form, the addresses on both
sides of a write, and the first and last byte of a read. -/
theorem witness_memory :
    Memory.wf [(3, 7), (9, 1)] = true ∧ ¬ (4 ≤ 3 ∧ 3 < 4 + ([1, 0] : List Byte).length) ∧
    ¬ (4 ≤ 6 ∧ 6 < 4 + ([1, 0] : List Byte).length) ∧ 0 < 16 ∧ 15 < 16 := by decide

/-- For ResetEventReturnsTheCoreToResetValues. -/
theorem witness_reset : ({ ready with inbox := [.reset] } : State).inbox = .reset :: [] := by decide

/-- For ResetDuringACommandGivesNoResponse: ENC and DEC on a ready core, and on one that is not. -/
theorem witness_cut (s : State) (h : s = ready ∨ s = State.reset) :
    ({ s with inbox := [.commandCutByReset (encode (.enc 0 17 32)) [5]] } : State).inbox =
      .commandCutByReset (encode (.enc 0 17 32)) [5] :: [] ∧
    decode (encode (.enc 0 17 32)) = .instr (.enc 0 17 32) ∧ DutiesKept (.enc 0 17 32) s ∧
    decode (encode (.dec 0 16 32)) = .instr (.dec 0 16 32) ∧ DutiesKept (.dec 0 16 32) s ∧
    decode (encode (.dec 0 17 32)) = .instr (.dec 0 17 32) ∧ DutiesKept (.dec 0 17 32) s ∧
    s.mem.wf = true ∧ 0 < encryptedLength 17 ∧ 31 < encryptedLength 17 ∧ 0 < ([5] : List Byte).length := by
  rcases h with rfl | rfl <;>
    refine ⟨rfl, by decide, ⟨by decide, by decide, by decide, by decide, fun _ => by decide⟩, by decide,
      ⟨by decide, by decide, by decide, fun _ _ => by decide⟩, by decide,
      ⟨by decide, by decide, by decide, fun _ _ => by decide⟩, by decide, by decide, by decide, by decide⟩

/-- For InitConstructsOrRefuses, SetKeyReplacesOrRefuses, SameKeyGivesTheSameConfiguration, and the
statements about schedules: a key of each legal length, INIT's form without a key, lengths next to
the legal ones, and byte counts next to the tag. -/
theorem witness_keys :
    (∀ klen ∈ ([16, 24, 32] : List Byte), (klen = 16 ∨ klen = 24 ∨ klen = 32) ∧
      (countingKey klen.toNat).length = klen.toNat ∧
      (zeros (klen.toNat - 1)).length ≠ klen.toNat ∧ (zeros (klen.toNat + 1)).length ≠ klen.toNat ∧
      zeros (klen.toNat - 1) ≠ []) ∧
    (∀ klen ∈ ([0, 15, 17, 23, 25, 31, 33, 255] : List Byte),
      ¬ (klen = 16 ∨ klen = 24 ∨ klen = 32)) := by decide

/-- For SameKeyGivesTheSameConfiguration: its two commands may be either. -/
theorem witness_same_key : (.init 16 (zeros 16) : Instr) = .init 16 (zeros 16) ∨
    (.init 16 (zeros 16) : Instr) = .setKey 16 (zeros 16) := .inl rfl

/-- For ScheduleSatisfiesItsRecurrence: the first and last column of each schedule, a first column of
a group, a midpoint column, and the first and last byte of a column. -/
theorem witness_columns :
    (∀ p ∈ [(16, 16), (16, 160), (16, 172), (24, 24), (24, 192), (24, 204), (32, 32), (32, 48), (32, 224),
        (32, 236)],
      p.2 % 4 = 0 ∧ p.1 ≤ p.2 ∧ p.2 < 16 * (p.1 / 4 + 7)) ∧
    160 % 16 = 0 ∧ 192 % 24 = 0 ∧ 224 % 32 = 0 ∧ 48 % 32 = 16 ∧ 208 % 32 = 16 ∧ 0 < 4 ∧ 3 < 4 := by
  decide

/-- For the statements about ENCBLK and DECBLK. -/
theorem witness_ready : ready.ready = true ∧ State.reset.ready = false := by decide

/-- For EncLenAnswersTheRoundedLength: where its two clauses meet. -/
theorem witness_encLen : 4294967280 ≤ 2 ^ 32 - 16 ∧ 2 ^ 32 - 16 < 4294967281 := by decide

/-- For EncWritesTheEncryptedBuffer, as `(src, len, dst, hole)` with one byte that the platform does
not accept: ranges that touch, that coincide, that end at the top of the address space, the greatest
length, and an empty input. -/
theorem witness_enc : ∀ c ∈ [(0, 17, 17, 49), (32, 17, 32, 31), (16, 4294967280, 16, 15),
      (4294967295, 1, 0, 16), (0, 1, 4294967280, 1), (5, 0, 5, 5)],
    let s : State := { ready with rejected := [⟨c.2.2.2, 1⟩] }
    s.ready = true ∧ s.mem.wf = true ∧ c.2.1 ≤ 2 ^ 32 - 16 ∧ c.1 + c.2.1 ≤ 2 ^ 32 ∧
    c.2.2.1 + encryptedLength c.2.1 ≤ 2 ^ 32 ∧
    (c.1 = c.2.2.1 ∨ ∀ a, ¬ ((c.1 ≤ a ∧ a < c.1 + c.2.1) ∧
      (c.2.2.1 ≤ a ∧ a < c.2.2.1 + encryptedLength c.2.1))) ∧
    (∀ hole ∈ s.rejected, ∀ a, hole.base ≤ a → a < hole.base + hole.size →
      ¬ (c.1 ≤ a ∧ a < c.1 + c.2.1) ∧ ¬ (c.2.2.1 ≤ a ∧ a < c.2.2.1 + encryptedLength c.2.1)) := by
  intro c hc
  simp only [List.mem_cons, List.not_mem_nil, or_false] at hc
  rcases hc with rfl | rfl | rfl | rfl | rfl | rfl <;>
    refine ⟨rfl, rfl, by decide, by decide, by decide, ?_, fun hole hh a h1 h2 => ?_⟩ <;>
    first
    | exact .inl rfl
    | (refine .inr fun a => ?_; simp only [encryptedLength]; omega)
    | (simp only [List.mem_singleton] at hh; subst hh; simp only [encryptedLength] at h1 h2 ⊢; omega)

/-- For DecWritesTheDecryptedBlocks, as `(src, len, dst, hole)`, in the same situations. -/
theorem witness_dec : ∀ c ∈ [(0, 16, 16, 32), (32, 16, 32, 31), (4294967280, 16, 0, 16),
      (0, 32, 4294967264, 32), (5, 0, 5, 5)],
    let s : State := { ready with rejected := [⟨c.2.2.2, 1⟩] }
    s.ready = true ∧ s.mem.wf = true ∧ c.2.1 % 16 = 0 ∧ c.1 + c.2.1 ≤ 2 ^ 32 ∧
    c.2.2.1 + c.2.1 ≤ 2 ^ 32 ∧
    (c.1 = c.2.2.1 ∨ ∀ a, ¬ ((c.1 ≤ a ∧ a < c.1 + c.2.1) ∧
      (c.2.2.1 ≤ a ∧ a < c.2.2.1 + c.2.1))) ∧
    (∀ hole ∈ s.rejected, ∀ a, hole.base ≤ a → a < hole.base + hole.size →
      ¬ (c.1 ≤ a ∧ a < c.1 + c.2.1) ∧ ¬ (c.2.2.1 ≤ a ∧ a < c.2.2.1 + c.2.1)) := by
  intro c hc
  simp only [List.mem_cons, List.not_mem_nil, or_false] at hc
  rcases hc with rfl | rfl | rfl | rfl | rfl <;>
    refine ⟨rfl, rfl, by decide, by decide, by decide, ?_, fun hole hh a h1 h2 => ?_⟩ <;>
    first
    | exact .inl rfl
    | (refine .inr fun a => ?_; simp only; omega)
    | (simp only [List.mem_singleton] at hh; subst hh; simp only at h1 h2 ⊢; omega)

/-- For DecAnswersInvalidInputForPartialBlocks and UnreadyCoreAnswersNotReady, as `(src, len, dst)`:
lengths next to multiples of 16, on a core that is not ready; ranges that touch, end at the top of the
address space, coincide, are separate, and partly overlap. -/
theorem witness_partial :
    ∀ c ∈ [(0, 17, 17), (0, 31, 4294967265), (7, 1, 7), (32, 15, 0), (0, 17, 8)],
    State.reset.ready = false ∧ c.2.1 % 16 ≠ 0 ∧ c.1 + c.2.1 ≤ 2 ^ 32 ∧ c.2.2 + c.2.1 ≤ 2 ^ 32 ∧
    (c.2.1 % 16 = 0 →
      c.1 = c.2.2 ∨ ∀ a, ¬ ((c.1 ≤ a ∧ a < c.1 + c.2.1) ∧ (c.2.2 ≤ a ∧ a < c.2.2 + c.2.1))) := by
  intro c hc
  simp only [List.mem_cons, List.not_mem_nil, or_false] at hc
  rcases hc with rfl | rfl | rfl | rfl | rfl <;>
    exact ⟨rfl, by decide, by decide, by decide, fun h => absurd h (by decide)⟩

/-- For UnreadyCoreAnswersNotReady: the clauses about ENC, DEC of whole blocks, and ENCLEN. -/
theorem witness_unready_transfer :
    State.reset.ready = false ∧ 17 ≤ 2 ^ 32 - 16 ∧ 0 + 17 ≤ 2 ^ 32 ∧ 17 + encryptedLength 17 ≤ 2 ^ 32 ∧
    (∀ a, ¬ ((0 ≤ a ∧ a < 0 + 17) ∧ (17 ≤ a ∧ a < 17 + encryptedLength 17))) ∧
    16 % 16 = 0 ∧ 4294967280 ≤ 2 ^ 32 - 16 := by
  refine ⟨rfl, by decide, by decide, by decide, fun a => ?_, by decide, by decide⟩
  simp only [encryptedLength]
  omega

/-- For DecWritesTheDecryptedBlocks: the first and the last block of a two-block buffer. -/
theorem witness_dec_blocks : 0 < 32 / 16 ∧ 1 < 32 / 16 := by decide

/-- For OverflowAndOverlapAreRefused: the first length and the first ranges that overflow, and ranges
that share exactly one byte. -/
theorem witness_refused :
    2 ^ 32 - 16 < 4294967281 ∧ (16 ≤ 2 ^ 32 - 16 ∧ 2 ^ 32 < 4294967281 + 16) ∧
    2 ^ 32 < 4294967281 + encryptedLength 1 ∧
    ((0 ≤ 16 ∧ 16 < 0 + 17) ∧ (16 ≤ 16 ∧ 16 < 16 + encryptedLength 17)) ∧
    32 % 16 = 0 ∧ ((0 ≤ 31 ∧ 31 < 0 + 32) ∧ (31 ≤ 31 ∧ 31 < 31 + 32)) := by decide

/-- For RejectedAccessIsStuck: one rejected byte, the last of the output range. -/
theorem witness_rejected :
    let s : State := { ready with rejected := [⟨47, 1⟩] }
    s.ready = true ∧ Span.mk 47 1 ∈ s.rejected ∧ 47 ≤ 47 ∧ 47 < 47 + 1 ∧ 16 % 16 = 0 ∧
    (32 ≤ 47 ∧ 47 < 32 + encryptedLength 16) ∧
    (0 = 32 ∨ ∀ x, ¬ ((0 ≤ x ∧ x < 0 + 16) ∧ (32 ≤ x ∧ x < 32 + encryptedLength 16))) := by
  refine ⟨rfl, by decide, by decide, by decide, by decide, by decide, .inr fun x => ?_⟩
  simp only [encryptedLength]
  omega

/-- For BlocksOfABufferAreIndependent. -/
theorem witness_whole_blocks : (zeros 32).length % 16 = 0 ∧ (zeros 0).length % 16 = 0 := by decide

/-- For DecOfEncRestoresTheBufferWithZeroPadding: three separate buffers of a 17-byte message, with the
last message byte and the pad bytes next to it and at the end. -/
theorem witness_dec_of_enc :
    ready.ready = true ∧ ready.mem.wf = true ∧ ready.rejected = [] ∧ 17 ≤ 2 ^ 32 - 16 ∧
    64 + encryptedLength 17 ≤ 2 ^ 32 ∧
    (0 = 32 ∨ ∀ x, ¬ ((0 ≤ x ∧ x < 0 + 17) ∧ (32 ≤ x ∧ x < 32 + encryptedLength 17))) ∧
    (32 = 64 ∨ ∀ x, ¬ ((32 ≤ x ∧ x < 32 + encryptedLength 17) ∧ (64 ≤ x ∧ x < 64 + encryptedLength 17))) ∧
    16 < 17 ∧ 17 ≤ 17 ∧ 31 < encryptedLength 17 := by
  refine ⟨rfl, rfl, rfl, by decide, by decide, .inr fun x => ?_, .inr fun x => ?_, by decide, by decide,
    by decide⟩ <;> simp only [encryptedLength] <;> omega

/-- For DecOfEncRestoresTheBufferWithZeroPadding: in place, `a = b = c`, with the rounded length ending
at the top of the address space. -/
theorem witness_dec_of_enc_in_place :
    ready.ready = true ∧ ready.mem.wf = true ∧ ready.rejected = [] ∧ 17 ≤ 2 ^ 32 - 16 ∧
    4294967264 + 17 ≤ 2 ^ 32 ∧ 4294967264 + encryptedLength 17 ≤ 2 ^ 32 ∧
    (4294967264 = 4294967264 ∨ ∀ x, ¬ ((4294967264 ≤ x ∧ x < 4294967264 + 17) ∧
      (4294967264 ≤ x ∧ x < 4294967264 + encryptedLength 17))) ∧
    16 < 17 ∧ 17 ≤ 17 ∧ 31 < encryptedLength 17 :=
  ⟨rfl, rfl, rfl, by decide, by decide, by decide, .inl rfl, by decide, by decide, by decide⟩

/-- For the statements about every command's next state (OnlyKeyCommandsChangeTheConfiguration,
OnlyBufferCommandsReachMemory, EachCommandGivesOneOfItsResponses): commands that complete. -/
theorem witness_completes :
    exec (.encLen 17) State.reset =
      .next { State.reset with outbox := [[0x00, 0x20, 0x00, 0x00, 0x00]] } ∧
    (∀ src len dst, (.encLen 17 : Instr) ≠ .enc src len dst ∧ (.encLen 17 : Instr) ≠ .dec src len dst) ∧
    (nextState (exec (.enc 0 0 0) ready)).isSome = true := by
  refine ⟨rfl, fun _ _ _ => ⟨by simp, by simp⟩, by decide⟩

/-- For UnreadyCoreServesOnlyKeyCommandsAndEncLen: an `OK` and a ready core from an unready one. -/
theorem witness_unready :
    State.reset.ready = false ∧
    exec (.encLen 0) State.reset =
      .next { State.reset with outbox := State.reset.outbox ++ [0x00 :: [0x00, 0x00, 0x00, 0x00]] } ∧
    ((nextState (exec (.setKey 16 (zeros 16)) State.reset)).map fun t => t.ready) = some true :=
  ⟨rfl, rfl, rfl⟩

/-- For TransientStateIsUnobservable: two different states that agree but for `S`, `T`, `RCON`. -/
theorem witness_transient :
    SameButTransient ready { ready with dp := ⟨blockOfBytes plain, blockOfBytes cipher⟩, rcon := 0x6c } ∧
    ready ≠ { ready with dp := ⟨blockOfBytes plain, blockOfBytes cipher⟩, rcon := 0x6c } := by
  refine ⟨rfl, by decide⟩

/-- For EveryStepKeepsTheInvariant: a keyed core with a command waiting meets the invariant and takes
a step. -/
theorem witness_invariant :
    State.Inv { keyed with inbox := [.command [0x20, 0x11, 0x00, 0x00, 0x00]] } ∧
    step { keyed with inbox := [.command [0x20, 0x11, 0x00, 0x00, 0x00]] } =
      .next { keyed with outbox := [[0x00, 0x20, 0x00, 0x00, 0x00]] } := by
  refine ⟨⟨fun _ => ⟨by decide, by decide, ?_, rfl⟩, fun h => (nomatch h), rfl, rfl, fun r h => ?_⟩, rfl⟩
  · decide +kernel
  · cases h

end Sys2Proof.Tests
end

section
/-! Noninterference of `S`, `T` and `RCON` (10_state.md R34). Every block operation loads `S` before
reading it and its first row shift overwrites `T`, and every key expansion starts `RCON` afresh; so
each operation takes states that differ only there to outcomes that differ only there. -/
namespace Sys2Proof.Machine

/-! ## The sequencers do not read what the datapath held -/

/-- A row shift after the encryption rounds discards what `T` held before them. -/
theorem Datapath.rowShift_foldl_encryptRound (w : List Byte) (f : Block → Block) (offset : List Nat)
    (rounds : List Nat) (blk t t' : Block) :
    (Datapath.onS f (rounds.foldl (Datapath.encryptRound w) ⟨blk, t⟩)).rowShift offset =
      (Datapath.onS f (rounds.foldl (Datapath.encryptRound w) ⟨blk, t'⟩)).rowShift offset := by
  cases rounds with
  | nil => rfl
  | cons i rounds => rfl

/-- Encryption loads `S` and overwrites `T` (42_block_ops.md R141). -/
theorem Datapath.encrypt_eq_of_any (w : List Byte) (nr : Nat) (blk : Block) (d d' : Datapath) :
    d.encrypt w nr blk = d'.encrypt w nr blk :=
  congrArg (Datapath.onS (addRoundKey w nr)) (Datapath.rowShift_foldl_encryptRound w ..)

/-- Decryption loads `S` and overwrites `T` before its first round (42_block_ops.md R144). -/
theorem Datapath.decrypt_eq_of_any (w : List Byte) (nr : Nat) (blk : Block) (d d' : Datapath) :
    d.decrypt w nr blk = d'.decrypt w nr blk := rfl

/-! ## Operations on two states that agree but for `S`, `T` and `RCON` -/

/-- Such a state is the other one with its `S`, `T` and `RCON` replaced. -/
theorem SameButTransient.exists_update {s s' : State} (h : SameButTransient s s') :
    ∃ dp rcon, s' = { s with dp := dp, rcon := rcon } :=
  ⟨s'.dp, s'.rcon, h.symm⟩

section
variable {s s' : State} (h : SameButTransient s s')
include h

theorem SameButTransient.ready_eq : s'.ready = s.ready :=
  (congrArg State.ready h).symm

theorem SameButTransient.rejects_eq (x : Span) : s'.rejects x = s.rejects x :=
  (congrArg (State.rejects · x) h).symm

theorem SameButTransient.mem_eq : s'.mem = s.mem :=
  (congrArg State.mem h).symm

theorem SameButTransient.inbox_eq : s'.inbox = s.inbox :=
  (congrArg State.inbox h).symm

theorem SameButTransient.writtenSpan_eq (d : Decoded) : writtenSpan d s' = writtenSpan d s :=
  (congrArg (writtenSpan d) h).symm

theorem SameButTransient.respond (r : Response) : SameButTransient (s.respond r) (s'.respond r) :=
  congrArg (State.respond · r) h

theorem SameButTransient.withMem (m : Memory) :
    SameButTransient { s with mem := m } { s' with mem := m } := by
  obtain ⟨dp, rcon, rfl⟩ := h.exists_update
  rfl

theorem SameButTransient.withInbox (events : List HostEvent) :
    SameButTransient { s with inbox := events } { s' with inbox := events } := by
  obtain ⟨dp, rcon, rfl⟩ := h.exists_update
  rfl

theorem SameButTransient.discardKey : SameButTransient s.discardKey s'.discardKey :=
  congrArg State.discardKey h

theorem SameButTransient.resetCore : SameButTransient s.resetCore s'.resetCore := by
  obtain ⟨dp, rcon, rfl⟩ := h.exists_update
  rfl

theorem SameButTransient.installKey (klen : Byte) (key : List Byte) :
    SameButTransient (s.installKey klen key) (s'.installKey klen key) :=
  congrArg (State.installKey klen key) h

/-- After a block operation the two states agree in `S` and `T` too. -/
theorem SameButTransient.encryptOne (blk : Block) :
    SameButTransient (s.encryptOne blk) (s'.encryptOne blk) ∧
      (s'.encryptOne blk).dp = (s.encryptOne blk).dp := by
  obtain ⟨dp, rcon, rfl⟩ := h.exists_update
  exact ⟨rfl, Datapath.encrypt_eq_of_any ..⟩

theorem SameButTransient.decryptOne (blk : Block) :
    SameButTransient (s.decryptOne blk) (s'.decryptOne blk) ∧
      (s'.decryptOne blk).dp = (s.decryptOne blk).dp := by
  obtain ⟨dp, rcon, rfl⟩ := h.exists_update
  exact ⟨rfl, Datapath.decrypt_eq_of_any ..⟩

theorem SameButTransient.respondBlock (hdp : s'.dp = s.dp) :
    SameButTransient s.respondBlock s'.respondBlock := by
  unfold State.respondBlock
  rw [hdp]
  exact h.respond _

theorem SameButTransient.storeBlock (hdp : s'.dp = s.dp) (addr : Nat) :
    SameButTransient (s.storeBlock addr) (s'.storeBlock addr) := by
  obtain ⟨dp, rcon, rfl⟩ := h.exists_update
  obtain rfl : dp = s.dp := hdp
  rfl

/-! ## The buffer sequencer -/

theorem SameButTransient.encStep (src dst b : Nat) :
    SameButTransient (encStep src dst s b) (encStep src dst s' b) := by
  unfold Machine.encStep
  rw [h.mem_eq]
  obtain ⟨hsame, hdp⟩ := h.encryptOne (blockOfBytes (memRead s.mem (src + 16 * b) 16))
  exact hsame.storeBlock hdp _

theorem SameButTransient.encTail (src dst nfull r : Nat) :
    SameButTransient (encTail src dst nfull r s) (encTail src dst nfull r s') := by
  unfold Machine.encTail
  rw [h.mem_eq]
  obtain ⟨hsame, hdp⟩ :=
    h.encryptOne (blockOfBytes (padTail Config.padMode (memRead s.mem (src + 16 * nfull) r)))
  exact hsame.storeBlock hdp _

theorem SameButTransient.decStep (src dst b : Nat) :
    SameButTransient (decStep src dst s b) (decStep src dst s' b) := by
  unfold Machine.decStep
  rw [h.mem_eq]
  obtain ⟨hsame, hdp⟩ := h.decryptOne (blockOfBytes (memRead s.mem (src + 16 * b) 16))
  exact hsame.storeBlock hdp _

theorem SameButTransient.encRun (src len dst : Nat) :
    SameButTransient (encRun src len dst s) (encRun src len dst s') := by
  have hloop := List.foldl_rel (l := List.range (len / 16)) (r := SameButTransient) h
    fun b _ _ _ hb => hb.encStep src dst b
  unfold Machine.encRun
  dsimp only
  split
  · exact hloop
  · exact hloop.encTail ..

theorem SameButTransient.decRun (src len dst : Nat) :
    SameButTransient (decRun src len dst s) (decRun src len dst s') :=
  List.foldl_rel h fun b _ _ _ hb => hb.decStep src dst b

end

/-! ## Outcomes that agree but for `S`, `T` and `RCON` -/

theorem SameOutcome.next {t t' : State} (h : SameButTransient t t') :
    SameOutcome (.next t) (.next t') := h

theorem SameOutcome.fault (r : Fault) : SameOutcome (.fault r) (.fault r) := rfl

theorem SameOutcome.refused (r : Refusal) : SameOutcome (.refused r) (.refused r) := rfl

/-- Outcomes that agree are two next states that agree, one fault or one refusal. -/
theorem SameOutcome.cases {a b : Result} (h : SameOutcome a b) :
    (∃ t t', a = .next t ∧ b = .next t' ∧ SameButTransient t t') ∨
      (∃ r, a = .fault r ∧ b = .fault r) ∨ ∃ r, a = .refused r ∧ b = .refused r := by
  match a, b, h with
  | .next t, .next t', h => exact .inl ⟨t, t', rfl, rfl, h⟩
  | .fault r, .fault _, rfl => exact .inr (.inl ⟨r, rfl, rfl⟩)
  | .refused r, .refused _, rfl => exact .inr (.inr ⟨r, rfl, rfl⟩)

/-- The same test before two commands. -/
theorem SameOutcome.ite (c : Prop) [Decidable c] {a a' b b' : Result} (ha : SameOutcome a a')
    (hb : SameOutcome b b') : SameOutcome (if c then a else b) (if c then a' else b') := by
  split
  · exact ha
  · exact hb

theorem SameOutcome.whenInSpace (input output : Span) {k k' : Result} (hk : SameOutcome k k') :
    SameOutcome (whenInSpace input output k) (whenInSpace input output k') :=
  .ite _ (.refused _) hk

theorem SameOutcome.whenAliasAdmitted (input output : Span) {k k' : Result} (hk : SameOutcome k k') :
    SameOutcome (whenAliasAdmitted input output k) (whenAliasAdmitted input output k') :=
  .ite _ (.refused _) hk

theorem SameOutcome.admitRanges (input output : Span) {k k' : Result} (hk : SameOutcome k k') :
    SameOutcome (admitRanges input output k) (admitRanges input output k') :=
  (hk.whenAliasAdmitted input output).whenInSpace input output

section
variable {s s' : State} (h : SameButTransient s s')
include h

theorem SameButTransient.raise (c : Condition) : SameOutcome (raise c s) (raise c s') :=
  .next (h.respond (.condition c))

theorem SameButTransient.whenReady {k k' : Result} (hk : SameOutcome k k') :
    SameOutcome (whenReady s k) (whenReady s' k') := by
  unfold Machine.whenReady
  rw [h.ready_eq]
  exact .ite _ hk (h.raise _)

theorem SameButTransient.whenAccepted (input output : Span) {k k' : Result} (hk : SameOutcome k k') :
    SameOutcome (whenAccepted s input output k) (whenAccepted s' input output k') := by
  unfold Machine.whenAccepted
  rw [h.rejects_eq, h.rejects_eq]
  exact .ite _ (.fault _) hk

/-! ## The commands -/

theorem SameButTransient.execInit (klen : Byte) (key : List Byte) :
    SameOutcome (execInit klen key s) (execInit klen key s') :=
  .ite _ (.next ((h.discardKey.installKey ..).respond _)) (h.discardKey.raise _)

theorem SameButTransient.execSetKey (klen : Byte) (key : List Byte) :
    SameOutcome (execSetKey klen key s) (execSetKey klen key s') :=
  .ite _ (.next ((h.installKey ..).respond _)) (h.raise _)

theorem SameButTransient.execEncBlk (blk : Block) :
    SameOutcome (execEncBlk blk s) (execEncBlk blk s') := by
  obtain ⟨hsame, hdp⟩ := h.encryptOne blk
  exact h.whenReady (.next (hsame.respondBlock hdp))

theorem SameButTransient.execDecBlk (blk : Block) :
    SameOutcome (execDecBlk blk s) (execDecBlk blk s') := by
  obtain ⟨hsame, hdp⟩ := h.decryptOne blk
  exact h.whenReady (.next (hsame.respondBlock hdp))

theorem SameButTransient.execEncLen (n : Nat) : SameOutcome (execEncLen n s) (execEncLen n s') :=
  .ite _ (.refused _) (.next (h.respond _))

theorem SameButTransient.execEnc (src len dst : Nat) :
    SameOutcome (execEnc src len dst s) (execEnc src len dst s') :=
  .ite _ (.refused _) <| .admitRanges _ _ <| h.whenReady <| h.whenAccepted _ _ <|
    .next ((h.encRun src len dst).respond _)

theorem SameButTransient.execDec (src len dst : Nat) :
    SameOutcome (execDec src len dst s) (execDec src len dst s') :=
  .whenInSpace _ _ <| .ite _ (h.raise _) <| .whenAliasAdmitted _ _ <| h.whenReady <|
    h.whenAccepted _ _ <| .next ((h.decRun src len dst).respond _)

theorem SameButTransient.exec (i : Instr) : SameOutcome (exec i s) (exec i s') := by
  cases i with
  | init klen key => exact h.execInit klen key
  | setKey klen key => exact h.execSetKey klen key
  | encBlk blk => exact h.execEncBlk blk
  | decBlk blk => exact h.execDecBlk blk
  | encLen n => exact h.execEncLen n
  | enc src len dst => exact h.execEnc src len dst
  | dec src len dst => exact h.execDec src len dst

/-! ## The port and the step -/

theorem SameButTransient.serve (p : Packet) : SameOutcome (serve p s) (serve p s') := by
  cases hp : decode p with
  | instr i =>
    rw [serve_of_instr hp, serve_of_instr hp]
    exact h.exec i
  | illegal why =>
    rw [serve_of_illegal hp, serve_of_illegal hp]
    exact h.raise _

theorem SameButTransient.cutByReset (p : Packet) (fill : List Byte) :
    SameOutcome (cutByReset p fill s) (cutByReset p fill s') := by
  unfold Machine.cutByReset
  rw [h.writtenSpan_eq, h.mem_eq]
  obtain ⟨t, t', ht, ht', -⟩ | ⟨r, hr, hr'⟩ | ⟨r, hr, hr'⟩ := (h.serve p).cases
  · rw [ht, ht']
    exact .next (h.withMem _).resetCore
  · rw [hr, hr']
    exact .fault r
  · rw [hr, hr']
    exact .refused r

theorem SameButTransient.hostStore (addr : Nat) (bytes : List Byte) :
    SameOutcome (hostStore addr bytes s) (hostStore addr bytes s') := by
  unfold Machine.hostStore
  rw [h.mem_eq]
  exact .ite _ (.next (h.withMem _)) (.refused _)

theorem SameButTransient.handle (e : HostEvent) : SameOutcome (handle e s) (handle e s') := by
  cases e with
  | command p => exact h.serve p
  | reset => exact .next h.resetCore
  | commandCutByReset p fill => exact h.cutByReset p fill
  | hostWrite addr bytes => exact h.hostStore addr bytes

theorem SameButTransient.step : SameOutcome (step s) (step s') := by
  cases hin : s.inbox with
  | nil =>
    rw [step_of_idle hin, step_of_idle (h.inbox_eq.trans hin)]
    exact .next h
  | cons e rest =>
    rw [step_of_event hin, step_of_event (h.inbox_eq.trans hin)]
    exact (h.withInbox rest).handle e

end

/-- Settles O53: every operation of the machine, from the block sequencers up to the step, keeps two
states equal but for `S`, `T` and `RCON`. -/
theorem transientStateIsUnobservable : Obligations.TransientStateIsUnobservable := by
  unfold Obligations.TransientStateIsUnobservable
  exact fun s s' h => h.step

end Sys2Proof.Machine
end

section
/-! The memory primitives (20_memory.md R51, R52), what ENC and DEC refuse or stop at before they touch
memory (R60, R61), and the commands that make no access (R53). -/
namespace Sys2Proof.Machine

/-! ## `MemRead` and `MemWrite` -/

/-- What `MemWrite` wrote, `MemRead` of the same addresses returns (20_memory.md R51, R52). -/
theorem memRead_memWrite {m : Memory} (h : m.wf = true) (addr : Nat) (v : List Byte) :
    memRead (memWrite m addr v) addr v.length = v := by
  refine List.ext_getElem (memRead_length ..) fun k hread hk => ?_
  have hin : addr ≤ addr + k ∧ addr + k < addr + v.length := by omega
  rw [← List.getD_eq_getElem _ 0 hread, memRead_getD _ _ _ _ hk, memWrite_read h, if_pos hin,
    Nat.add_sub_cancel_left, List.getD_eq_getElem _ 0 hk]

/-- `MemWrite` changes no byte outside its addresses (20_memory.md R52). -/
theorem memWrite_read_outside {m : Memory} (h : m.wf = true) {addr : Nat} {v : List Byte} {a : Nat}
    (ha : ¬ (addr ≤ a ∧ a < addr + v.length)) : (memWrite m addr v).read a = m.read a := by
  rw [memWrite_read h, if_neg ha]

/-- Settles O10, from what every byte reads as after a `MemWrite` (`memWrite_read`). -/
theorem memReadAndMemWriteMoveExactlyTheirBytes :
    Obligations.MemReadAndMemWriteMoveExactlyTheirBytes := by
  unfold Obligations.MemReadAndMemWriteMoveExactlyTheirBytes
  exact ⟨fun m addr n => ⟨memRead_length m addr n, memRead_getD m addr n⟩,
    fun m addr v h => ⟨memRead_memWrite h addr v, fun a => memWrite_read_outside h⟩⟩

/-! ## Ranges that are not admitted -/

/-- Both ranges end inside the address space (20_memory.md R61). -/
theorem both_fit_iff {src size dst size' : Nat} :
    ((Span.mk src size).fits = true ∧ (Span.mk dst size').fits = true) ↔
      src + size ≤ 2 ^ 32 ∧ dst + size' ≤ 2 ^ 32 := by
  rw [Span.fits_iff, Span.fits_iff, addrSpace_eq]

theorem not_both_fit {src size dst size' : Nat} (h : 2 ^ 32 < src + size ∨ 2 ^ 32 < dst + size') :
    ¬ ((Span.mk src size).fits = true ∧ (Span.mk dst size').fits = true) := by
  rw [both_fit_iff]
  omega

/-- Ranges that share a byte and start at different addresses are not admitted (20_memory.md R60). -/
theorem not_aliasAdmitted {src size dst size' : Nat} (hne : src ≠ dst)
    (h : ∃ a, (src ≤ a ∧ a < src + size) ∧ (dst ≤ a ∧ a < dst + size')) :
    ¬ aliasAdmitted ⟨src, size⟩ ⟨dst, size'⟩ = true := by
  obtain ⟨a, ha⟩ := h
  rw [aliasAdmitted_iff]
  rintro (heq | hdisjoint)
  · exact hne heq
  · exact hdisjoint a ha

/-! ## ENC and DEC as gates before a transfer -/

theorem execEnc_of_lengthOverflow {len : Nat} (h : Config.maxLen < len) (src dst : Nat) (s : State) :
    execEnc src len dst s = .refused .lengthOverflow :=
  if_pos h

/-- ENC of a length that can be rounded up: the three gates, then the transfer. -/
theorem execEnc_of_len_le {len : Nat} (h : len ≤ Config.maxLen) (src dst : Nat) (s : State) :
    execEnc src len dst s =
      admitRanges (inputSpan src len) (encOutputSpan dst len)
        (whenReady s (whenAccepted s (inputSpan src len) (encOutputSpan dst len)
          (.next ((encRun src len dst s).respond (.ok []))))) :=
  if_neg (Nat.not_lt.2 h)

/-- DEC of whole blocks: the three gates, then the transfer. -/
theorem execDec_of_whole_blocks {len : Nat} (h : len % 16 = 0) (src dst : Nat) (s : State) :
    execDec src len dst s =
      admitRanges (inputSpan src len) (decOutputSpan dst len)
        (whenReady s (whenAccepted s (inputSpan src len) (decOutputSpan dst len)
          (.next ((decRun src len dst s).respond (.ok []))))) := by
  have hwhole : ¬ (len ≠ 0 ∧ len % 16 ≠ 0) := fun hpartial => hpartial.2 h
  rw [execDec, if_neg hwhole, admitRanges]

/-- DEC of any length whose ranges pass the top of the address space (20_memory.md R61). -/
theorem execDec_of_overflow {src len dst : Nat}
    (h : ¬ ((inputSpan src len).fits = true ∧ (decOutputSpan dst len).fits = true)) (s : State) :
    execDec src len dst s = .refused .addressOverflow :=
  whenInSpace_of_overflow h _

/-- Settles O43: each refusal is what the first gate it meets answers. -/
theorem overflowAndOverlapAreRefused : Obligations.OverflowAndOverlapAreRefused := by
  unfold Obligations.OverflowAndOverlapAreRefused
  refine fun src len dst s => ⟨fun hlen => ?_, fun hlen hover => ?_,
    fun hlen hsrc hdst hne hshare => ?_, fun hover => ?_, fun hlen hsrc hdst hne hshare => ?_⟩
  · exact execEnc_of_lengthOverflow hlen src dst s
  · exact (execEnc_of_len_le hlen src dst s).trans (admitRanges_of_overflow (not_both_fit hover) _)
  · exact (execEnc_of_len_le hlen src dst s).trans
      (admitRanges_of_overlap (both_fit_iff.2 ⟨hsrc, hdst⟩) (not_aliasAdmitted hne hshare) _)
  · exact execDec_of_overflow (not_both_fit hover) s
  · exact (execDec_of_whole_blocks hlen src dst s).trans
      (admitRanges_of_overlap (both_fit_iff.2 ⟨hsrc, hdst⟩) (not_aliasAdmitted hne hshare) _)

/-- On a ready core and admitted ranges, the gates stop at an access the platform does not accept. -/
theorem gates_of_rejected {s : State} {input output : Span} (hadmitted : Admitted input output)
    (hready : s.ready = true) (hrejected : s.rejects input = true ∨ s.rejects output = true)
    (k : Result) :
    admitRanges input output (whenReady s (whenAccepted s input output k)) =
      .fault .accessRejected := by
  rw [admitRanges_of_admitted hadmitted, whenReady_of_ready hready, whenAccepted_of_rejected hrejected]

/-- Settles O44: the hole meets one of the two ranges, so the last gate stops the transfer. -/
theorem rejectedAccessIsStuck : Obligations.RejectedAccessIsStuck := by
  unfold Obligations.RejectedAccessIsStuck
  intro src len dst s hole a hready hhole hbase hend
  have hrejects {x : Span} (hx : x.base ≤ a ∧ a < x.base + x.size) : s.rejects x = true :=
    State.rejects_iff.2 ⟨hole, hhole, a, ⟨hbase, hend⟩, hx⟩
  refine ⟨fun hlen hsrc hdst halias ha => ?_, fun hlen hsrc hdst halias ha => ?_⟩
  · exact (execEnc_of_len_le hlen src dst s).trans
      (gates_of_rejected (admitted_iff.2 ⟨hsrc, hdst, halias⟩) hready (ha.imp hrejects hrejects) _)
  · exact (execDec_of_whole_blocks hlen src dst s).trans
      (gates_of_rejected (admitted_iff.2 ⟨hsrc, hdst, halias⟩) hready (ha.imp hrejects hrejects) _)

/-! ## Commands that make no memory access -/

/-- An operation that neither writes memory nor reads it: when it completes, memory is as before, and
with any other memory it completes in the same state but for that memory (20_memory.md R53). -/
def IgnoresMemory (f : State → Result) : Prop :=
  ∀ (s t : State) (m : Memory), f s = .next t →
    t.mem = s.mem ∧ f { s with mem := m } = .next { t with mem := m }

theorem IgnoresMemory.next {f : State → State} (hkeeps : ∀ s, (f s).mem = s.mem)
    (hcommutes : ∀ s m, f { s with mem := m } = { f s with mem := m }) :
    IgnoresMemory fun s => .next (f s) := by
  rintro s _ m ⟨⟩
  exact ⟨hkeeps s, congrArg _ (hcommutes s m)⟩

theorem IgnoresMemory.refused (r : Refusal) : IgnoresMemory fun _ => .refused r :=
  fun _ _ _ h => nomatch h

theorem IgnoresMemory.raise (c : Condition) : IgnoresMemory (raise c) :=
  .next (fun _ => rfl) fun _ _ => rfl

/-- A test of the operands before two operations. -/
theorem IgnoresMemory.ite (c : Prop) [Decidable c] {f g : State → Result} (hf : IgnoresMemory f)
    (hg : IgnoresMemory g) : IgnoresMemory fun s => if c then f s else g s := by
  by_cases h : c
  · simpa only [h, if_true] using hf
  · simpa only [h, if_false] using hg

/-- The test of `READY` reads no memory either. -/
theorem IgnoresMemory.whenReady {f : State → Result} (hf : IgnoresMemory f) :
    IgnoresMemory fun s => whenReady s (f s) := by
  intro s t m h
  obtain ⟨hready, hk⟩ | ⟨hready, rfl⟩ := whenReady_next.1 h
  · obtain ⟨hmem, hany⟩ := hf s t m hk
    exact ⟨hmem, (whenReady_of_ready (s := { s with mem := m }) hready _).trans hany⟩
  · exact ⟨rfl, whenReady_of_unready (s := { s with mem := m }) hready _⟩

theorem execInit_ignoresMemory (klen : Byte) (key : List Byte) : IgnoresMemory (execInit klen key) :=
  .ite _ (.next (fun _ => rfl) fun _ _ => rfl) (.next (fun _ => rfl) fun _ _ => rfl)

theorem execSetKey_ignoresMemory (klen : Byte) (key : List Byte) :
    IgnoresMemory (execSetKey klen key) :=
  .ite _ (.next (fun _ => rfl) fun _ _ => rfl) (.raise _)

theorem execEncBlk_ignoresMemory (blk : Block) : IgnoresMemory (execEncBlk blk) :=
  .whenReady (.next (fun _ => rfl) fun _ _ => rfl)

theorem execDecBlk_ignoresMemory (blk : Block) : IgnoresMemory (execDecBlk blk) :=
  .whenReady (.next (fun _ => rfl) fun _ _ => rfl)

theorem execEncLen_ignoresMemory (n : Nat) : IgnoresMemory (execEncLen n) :=
  .ite _ (.refused _) (.next (fun _ => rfl) fun _ _ => rfl)

/-- Settles O49, command by command; the statement leaves out ENC and DEC. -/
theorem onlyBufferCommandsReachMemory : Obligations.OnlyBufferCommandsReachMemory := by
  unfold Obligations.OnlyBufferCommandsReachMemory
  intro i s t m hi
  cases i with
  | init klen key => exact execInit_ignoresMemory klen key s t m
  | setKey klen key => exact execSetKey_ignoresMemory klen key s t m
  | encBlk blk => exact execEncBlk_ignoresMemory blk s t m
  | decBlk blk => exact execDecBlk_ignoresMemory blk s t m
  | encLen n => exact execEncLen_ignoresMemory n s t m
  | enc src len dst => exact absurd rfl (hi src len dst).1
  | dec src len dst => exact absurd rfl (hi src len dst).2

end Sys2Proof.Machine
end

section
/-! The decoder and the encoder undo each other (30_encoding.md R72 to R84). `Opcode.byte` is the opcode
map read backwards, so a packet that decodes is `o.byte :: body` with a body of the length that the
format of `o` gives; its fields, one after the other, are the body. -/
namespace Sys2Proof
open Laws.EncodedLength (opcode)

/-! ## The opcode map read backwards -/

/-- The byte that selects a command (30_encoding.md R70). -/
def Opcode.byte : Opcode → Byte
  | .init => 0x01
  | .setKey => 0x02
  | .encBlk => 0x10
  | .decBlk => 0x11
  | .encLen => 0x20
  | .enc => 0x21
  | .dec => 0x22

@[simp] theorem opcodeOf_byte (o : Opcode) : opcodeOf o.byte = some o := by
  cases o <;> rfl

theorem mem_assigned_iff {op : Byte} :
    op ∈ ([0x01, 0x02, 0x10, 0x11, 0x20, 0x21, 0x22] : List Byte) ↔ ∃ o : Opcode, op = o.byte := by
  constructor
  · intro h
    simp only [List.mem_cons, List.not_mem_nil, or_false] at h
    obtain h | h | h | h | h | h | h := h
    exacts [⟨.init, h⟩, ⟨.setKey, h⟩, ⟨.encBlk, h⟩, ⟨.decBlk, h⟩, ⟨.encLen, h⟩, ⟨.enc, h⟩, ⟨.dec, h⟩]
  · rintro ⟨o, rfl⟩
    cases o <;> decide

theorem opcodeOf_eq_none {op : Byte}
    (h : op ∉ ([0x01, 0x02, 0x10, 0x11, 0x20, 0x21, 0x22] : List Byte)) : opcodeOf op = none :=
  (opcode_cases op).resolve_left h

theorem eq_byte_of_opcodeOf {op : Byte} {o : Opcode} (h : opcodeOf op = some o) : op = o.byte := by
  obtain hop | hnone := opcode_cases op
  · obtain ⟨o', rfl⟩ := mem_assigned_iff.1 hop
    rw [opcodeOf_byte, Option.some.injEq] at h
    rw [h]
  · cases hnone.symm.trans h

/-! ## Numbers that fit their fields -/

/-- A number field holds four bytes (00_scope.md R7, 30_encoding.md R73). -/
theorem lenSpace_eq : Config.lenSpace = 256 ^ 4 := rfl

theorem wellFormed_encLen {n : Nat} : WellFormed (.encLen n) ↔ n < 256 ^ 4 := by
  rw [WellFormed, Instr.wellFormed, decide_eq_true_iff, lenSpace_eq]

theorem wellFormed_enc {src len dst : Nat} :
    WellFormed (.enc src len dst) ↔ src < 256 ^ 4 ∧ len < 256 ^ 4 ∧ dst < 256 ^ 4 := by
  have hspace : Config.addrSpace = 256 ^ 4 := rfl
  rw [WellFormed, Instr.wellFormed, Bool.and_eq_true, Bool.and_eq_true, decide_eq_true_iff,
    decide_eq_true_iff, decide_eq_true_iff, lenSpace_eq, hspace, and_assoc]

theorem wellFormed_dec {src len dst : Nat} :
    WellFormed (.dec src len dst) ↔ src < 256 ^ 4 ∧ len < 256 ^ 4 ∧ dst < 256 ^ 4 :=
  wellFormed_enc

/-! ## Decoding what was encoded -/

/-- Byte `k` of a block's packet after the opcode is byte `k` of the block (30_encoding.md R75). -/
theorem blockOfBytes_field_toList (op : Byte) (blk : Block) :
    blockOfBytes (field (op :: blk.toList) 1 16) = blk := by
  have hfield : field (op :: blk.toList) 1 16 = blk.toList := List.take_of_length_le (by simp)
  rw [hfield, blockOfBytes_toList]

/-- The fields of a well-formed command's packet hold its operands (30_encoding.md R73 to R77). -/
theorem operands_encode {i : Instr} (h : WellFormed i) : operands (opcode i) (encode i) = i := by
  cases i with
  | init klen key => rfl
  | setKey klen key => rfl
  | encBlk blk => exact congrArg Instr.encBlk (blockOfBytes_field_toList _ blk)
  | decBlk blk => exact congrArg Instr.decBlk (blockOfBytes_field_toList _ blk)
  | encLen n => exact congrArg Instr.encLen (leNat_leBytes 4 (wellFormed_encLen.1 h))
  | enc src len dst =>
    obtain ⟨hsrc, hlen, hdst⟩ := wellFormed_enc.1 h
    exact congr (congrArg₂ Instr.enc (leNat_leBytes 4 hsrc) (leNat_leBytes 4 hlen))
      (leNat_leBytes 4 hdst)
  | dec src len dst =>
    obtain ⟨hsrc, hlen, hdst⟩ := wellFormed_dec.1 h
    exact congr (congrArg₂ Instr.dec (leNat_leBytes 4 hsrc) (leNat_leBytes 4 hlen))
      (leNat_leBytes 4 hdst)

/-- Every packet of the encoder begins with its command's opcode and has a length of its format. -/
theorem encodedLength (i : Instr) : Laws.EncodedLength.Statement i := by
  cases i with
  | init klen key => exact Laws.EncodedLength.init klen key
  | setKey klen key => exact Laws.EncodedLength.setKey klen key
  | encBlk blk => exact Laws.EncodedLength.encBlk blk
  | decBlk blk => exact Laws.EncodedLength.decBlk blk
  | encLen n => exact Laws.EncodedLength.encLen n
  | enc src len dst => exact Laws.EncodedLength.enc src len dst
  | dec src len dst => exact Laws.EncodedLength.dec src len dst

/-- The decoder on the encoder's packets, well-formed or not: the command's fields are read back. -/
theorem decode_encode_eq_operands (i : Instr) :
    decode (encode i) = .instr (operands (opcode i) (encode i)) := by
  obtain ⟨hop, hfits⟩ := encodedLength i
  cases hp : encode i with
  | nil => simp [hp] at hop
  | cons op body =>
    rw [hp] at hop hfits
    exact decode_cons_eq_instr.2 ⟨opcode i, hop, hfits, rfl⟩

theorem decode_encode {i : Instr} (h : WellFormed i) : decode (encode i) = .instr i := by
  rw [decode_encode_eq_operands, operands_encode h]

/-- Settles O3: the packet's opcode and length are its command's, and each field gives its operand. -/
theorem decodeInvertsEncode : Obligations.DecodeInvertsEncode := by
  unfold Obligations.DecodeInvertsEncode
  exact fun i => decode_encode

/-! ## Encoding what was decoded -/

/-- Two fields that stand next to each other are one field. -/
theorem field_append (p : Packet) (o m n : Nat) :
    field p o m ++ field p (o + m) n = field p o (m + n) := by
  rw [field, field, field, List.take_add, List.drop_drop]

/-- The field from offset 1 to the end is the whole body. -/
theorem field_body {op : Byte} {body : List Byte} {n : Nat} (h : body.length = n) :
    field (op :: body) 1 n = body :=
  List.take_of_length_le h.le

theorem leBytes_leNat_field {p : Packet} {o n : Nat} (h : o + n ≤ p.length) :
    leBytes n (leNat (field p o n)) = field p o n := by
  have hbytes := leBytes_leNat (field p o n)
  rwa [field_length h] at hbytes

theorem leNat_field_lt (p : Packet) (o n : Nat) : leNat (field p o n) < 256 ^ n :=
  (leNat_lt _).trans_le (Nat.pow_le_pow_right (by decide) (List.length_take_le ..))

/-- The block format has no byte but the opcode and the block (30_encoding.md R75). -/
theorem toList_blockOfBytes_field {op : Byte} {body : List Byte} (h : body.length + 1 = 17) :
    (blockOfBytes (field (op :: body) 1 16)).toList = body := by
  have hbody : body.length = 16 := by omega
  rw [field_body hbody, toList_blockOfBytes hbody]

/-- The length format has no byte but the opcode and the number (30_encoding.md R76). -/
theorem leBytes_length_field {op : Byte} {body : List Byte} (h : body.length + 1 = 5) :
    leBytes 4 (leNat (field (op :: body) 1 4)) = body := by
  have hin : 1 + 4 ≤ (op :: body).length := by rw [List.length_cons]; omega
  rw [leBytes_leNat_field hin, field_body (by omega)]

/-- The memory format has no byte but the opcode and the three numbers (30_encoding.md R77). -/
theorem leBytes_transfer_fields {op : Byte} {body : List Byte} (h : body.length + 1 = 13) :
    leBytes 4 (leNat (field (op :: body) 1 4)) ++ leBytes 4 (leNat (field (op :: body) 5 4)) ++
      leBytes 4 (leNat (field (op :: body) 9 4)) = body := by
  have hnumber : ∀ o ≤ 9, leBytes 4 (leNat (field (op :: body) o 4)) = field (op :: body) o 4 :=
    fun o ho => leBytes_leNat_field (by rw [List.length_cons]; omega)
  rw [hnumber 1 (by decide), hnumber 5 (by decide), hnumber 9 (by decide), field_append _ 1 4 4,
    field_append _ 1 8 4, field_body (by omega)]

/-! The lengths that each format gives (30_encoding.md R74 to R77). -/

theorem Format.fits_k {n : Nat} : Format.k.fits n = true ↔ 2 ≤ n := decide_eq_true_iff
theorem Format.fits_b {n : Nat} : Format.b.fits n = true ↔ n = 17 := beq_iff_eq
theorem Format.fits_l {n : Nat} : Format.l.fits n = true ↔ n = 5 := beq_iff_eq
theorem Format.fits_m {n : Nat} : Format.m.fits n = true ↔ n = 13 := beq_iff_eq

/-- The body of a key-format packet begins with `klen` (30_encoding.md R74). -/
theorem exists_cons_of_fits_k {body : List Byte} (h : Format.k.fits (body.length + 1) = true) :
    ∃ klen key, body = klen :: key :=
  List.exists_cons_of_length_pos (by have := Format.fits_k.1 h; omega)

/-- A body of a right length is all operands: no byte of the packet is ignored. -/
theorem encode_operands {o : Opcode} {body : List Byte} (h : o.format.fits (body.length + 1) = true) :
    encode (operands o (o.byte :: body)) = o.byte :: body := by
  cases o with
  | init =>
    obtain ⟨klen, key, rfl⟩ := exists_cons_of_fits_k h
    rfl
  | setKey =>
    obtain ⟨klen, key, rfl⟩ := exists_cons_of_fits_k h
    rfl
  | encBlk => exact congrArg (List.cons _) (toList_blockOfBytes_field (Format.fits_b.1 h))
  | decBlk => exact congrArg (List.cons _) (toList_blockOfBytes_field (Format.fits_b.1 h))
  | encLen => exact congrArg (List.cons _) (leBytes_length_field (Format.fits_l.1 h))
  | enc => exact congrArg (List.cons _) (leBytes_transfer_fields (Format.fits_m.1 h))
  | dec => exact congrArg (List.cons _) (leBytes_transfer_fields (Format.fits_m.1 h))

/-- A four-byte field cannot hold a number that is too large (30_encoding.md R73). -/
theorem wellFormed_operands (o : Opcode) (p : Packet) : WellFormed (operands o p) := by
  cases o with
  | init => rfl
  | setKey => rfl
  | encBlk => rfl
  | decBlk => rfl
  | encLen => exact wellFormed_encLen.2 (leNat_field_lt ..)
  | enc => exact wellFormed_enc.2 ⟨leNat_field_lt .., leNat_field_lt .., leNat_field_lt ..⟩
  | dec => exact wellFormed_dec.2 ⟨leNat_field_lt .., leNat_field_lt .., leNat_field_lt ..⟩

/-- Settles O4: the fields of a packet that decodes are the whole packet. -/
theorem encodeInvertsDecode : Obligations.EncodeInvertsDecode := by
  unfold Obligations.EncodeInvertsDecode
  intro p i h
  cases p with
  | nil => cases h
  | cons op body =>
    obtain ⟨o, hop, hfits, rfl⟩ := decode_cons_eq_instr.1 h
    obtain rfl := eq_byte_of_opcodeOf hop
    exact ⟨encode_operands hfits, wellFormed_operands o _⟩

end Sys2Proof
end

section
/-! What the port makes of a packet: a command of the right length is run, and everything else answers
`IllegalCommand` and changes nothing (30_encoding.md R71, R79, R80); and the one response that each
command gives (R78; 60_exceptions.md, section 1). -/
namespace Sys2Proof.Machine

/-! ## Operand fields -/

/-- The number in a four-byte field (30_encoding.md R73). -/
theorem leNat_four (b0 b1 b2 b3 : Byte) :
    leNat [b0, b1, b2, b3] =
      b0.toNat + 256 * b1.toNat + 65536 * b2.toNat + 16777216 * b3.toNat := by
  simp only [leNat]
  omega

/-- Settles O2: byte-string operands by `decode_encode`, numbers by what `leNat` gives on a field. -/
theorem operandFieldsAreReadAsTheFormatsSay : Obligations.OperandFieldsAreReadAsTheFormatsSay := by
  unfold Obligations.OperandFieldsAreReadAsTheFormatsSay
  refine ⟨fun klen key => ⟨?init, ?setKey⟩, fun blk => ⟨?encBlk, ?decBlk⟩, fun n0 n1 n2 n3 => ?encLen,
    fun s0 s1 s2 s3 l0 l1 l2 l3 d0 d1 d2 d3 => ?transfer⟩
  case init => exact decode_encode (i := .init klen key) rfl
  case setKey => exact decode_encode (i := .setKey klen key) rfl
  case encBlk => exact decode_encode (i := .encBlk blk) rfl
  case decBlk => exact decode_encode (i := .decBlk blk) rfl
  case encLen =>
    rw [← leNat_four]
    rfl
  case transfer =>
    dsimp only
    rw [← leNat_four, ← leNat_four, ← leNat_four]
    exact ⟨rfl, rfl⟩

/-! ## The step on a command packet -/

/-- The step serves the oldest packet (30_encoding.md R71). -/
theorem step_of_command {s : State} {p : Packet} {rest : List HostEvent} {i : Instr}
    (hin : s.inbox = .command p :: rest) (hp : decode p = .instr i) :
    step s = exec i { s with inbox := rest } := by
  rw [step_of_event hin, handle, serve_of_instr hp]

/-- Settles O7: the second clause is the first on the packet that decodes to the command. -/
theorem stepRunsTheDecodedCommand : Obligations.StepRunsTheDecodedCommand := by
  unfold Obligations.StepRunsTheDecodedCommand
  exact ⟨fun s p rest i => step_of_command,
    fun s rest i hi hin => step_of_command hin (decode_encode hi)⟩

/-! ## Packets that are no command -/

/-- `IllegalCommand` is the status byte `0x04`, and nothing but the outbox changes
(60_exceptions.md R224). -/
theorem serve_eq_of_illegal {p : Packet} {why : IllegalPacket} (h : decode p = .illegal why)
    (s : State) : serve p s = .next { s with outbox := s.outbox ++ [[0x04]] } :=
  serve_of_illegal h s

theorem decode_of_reserved {op : Byte} (h : opcodeOf op = none) (body : List Byte) :
    decode (op :: body) = .illegal (.reservedOpcode op) := by
  simp only [decode, h]

theorem decode_of_fits {o : Opcode} {body : List Byte} (h : o.format.fits (body.length + 1) = true) :
    decode (o.byte :: body) = .instr (operands o (o.byte :: body)) :=
  decode_cons_eq_instr.2 ⟨o, opcodeOf_byte o, h, rfl⟩

theorem decode_of_wrong_length {o : Opcode} {body : List Byte}
    (h : ¬ o.format.fits (body.length + 1) = true) :
    decode (o.byte :: body) = .illegal (.wrongLength o (body.length + 1)) := by
  simp only [decode, opcodeOf_byte, List.length_cons, if_neg h]

/-- Settles O5: an opcode that is not assigned selects no command, so its packet is illegal. -/
theorem opcodeMapIsWholeAndReservedOpcodesAreIllegal :
    Obligations.OpcodeMapIsWholeAndReservedOpcodesAreIllegal := by
  unfold Obligations.OpcodeMapIsWholeAndReservedOpcodesAreIllegal
  refine ⟨opcodeOf_byte .init, opcodeOf_byte .setKey, opcodeOf_byte .encBlk, opcodeOf_byte .decBlk,
    opcodeOf_byte .encLen, opcodeOf_byte .enc, opcodeOf_byte .dec, fun op body s hop => ?_⟩
  have hnone := opcodeOf_eq_none hop
  exact ⟨hnone, serve_eq_of_illegal (decode_of_reserved hnone body) s⟩

/-- The lengths by opcode byte are those of the opcodes' formats (30_encoding.md R74 to R77). -/
theorem fits_by_opcode_byte (o : Opcode) (n : Nat) :
    (if o.byte = 0x01 ∨ o.byte = 0x02 then 2 ≤ n
      else if o.byte = 0x10 ∨ o.byte = 0x11 then n = 17
      else if o.byte = 0x20 then n = 5
      else n = 13) ↔ o.format.fits n = true := by
  cases o with
  | init => exact Format.fits_k.symm
  | setKey => exact Format.fits_k.symm
  | encBlk => exact Format.fits_b.symm
  | decBlk => exact Format.fits_b.symm
  | encLen => exact Format.fits_l.symm
  | enc => exact Format.fits_m.symm
  | dec => exact Format.fits_m.symm

/-- Settles O6: a packet of an assigned opcode decodes exactly when its length fits the format. -/
theorem malformedPacketsRaiseIllegalCommand : Obligations.MalformedPacketsRaiseIllegalCommand := by
  unfold Obligations.MalformedPacketsRaiseIllegalCommand
  refine ⟨serve_eq_of_illegal (why := .emptyPacket) rfl, fun op body s hop => ?_⟩
  obtain ⟨o, rfl⟩ := mem_assigned_iff.1 hop
  have hfits := fits_by_opcode_byte o (body.length + 1)
  exact ⟨fun h => serve_eq_of_illegal (decode_of_wrong_length (mt hfits.2 h)) s,
    fun h => ⟨_, decode_of_fits (hfits.1 h)⟩⟩

/-! ## Responses -/

/-- After work that sends nothing, the response is the only one the command gives. -/
theorem respond_outbox_of_eq {s u : State} (h : u.outbox = s.outbox) (r : Response) :
    (u.respond r).outbox = s.outbox ++ [Response.encode r] := by
  rw [State.respond_outbox, h]

theorem respondBlock_outbox_of_eq {s u : State} (h : u.outbox = s.outbox) :
    u.respondBlock.outbox = s.outbox ++ [0x00 :: u.dp.s.toList] := by
  rw [State.respondBlock_outbox, h]

/-- A test with one response after either outcome, each of a kind that the command may give. -/
theorem ite_outbox {P : Packet → Prop} {c : Prop} [Decidable c] {a b : State} {sent : List Packet}
    {x y : Packet} (ha : a.outbox = sent ++ [x]) (hx : P x) (hb : b.outbox = sent ++ [y]) (hy : P y) :
    ∃ r, (if c then a else b).outbox = sent ++ [r] ∧ P r := by
  split
  · exact ⟨x, ha, hx⟩
  · exact ⟨y, hb, hy⟩

/-- Settles O50: the inversion lemma of each command names its next states, and each of them is what
the command did followed by one response. -/
theorem eachCommandGivesOneOfItsResponses : Obligations.EachCommandGivesOneOfItsResponses := by
  unfold Obligations.EachCommandGivesOneOfItsResponses
  intro i s t h
  cases i with
  | init klen key =>
    obtain rfl := Host.Outcome.next.inj ((execInit_eq klen key s).symm.trans h)
    exact ite_outbox (State.respond_outbox _ _) (.inl rfl) (State.respond_outbox _ _) (.inr rfl)
  | setKey klen key =>
    obtain rfl := Host.Outcome.next.inj ((execSetKey_eq klen key s).symm.trans h)
    exact ite_outbox (State.respond_outbox _ _) (.inl rfl) (State.respond_outbox _ _) (.inr rfl)
  | encBlk blk =>
    obtain rfl := Host.Outcome.next.inj ((execEncBlk_eq blk s).symm.trans h)
    exact ite_outbox (respondBlock_outbox_of_eq (State.encryptOne_outbox s blk)) (.inl ⟨_, rfl⟩)
      (State.respond_outbox _ _) (.inr rfl)
  | decBlk blk =>
    obtain rfl := Host.Outcome.next.inj ((execDecBlk_eq blk s).symm.trans h)
    exact ite_outbox (respondBlock_outbox_of_eq (State.decryptOne_outbox s blk)) (.inl ⟨_, rfl⟩)
      (State.respond_outbox _ _) (.inr rfl)
  | encLen n =>
    obtain ⟨-, rfl⟩ := execEncLen_next.1 h
    exact ⟨_, State.respond_outbox _ _, _, _, _, _, rfl⟩
  | enc src len dst =>
    obtain ⟨-, ⟨-, -, rfl⟩ | ⟨-, rfl⟩⟩ := execEnc_next.1 h
    · exact ⟨_, respond_outbox_of_eq (encRun_keeps src len dst s).outbox _, .inl rfl⟩
    · exact ⟨_, State.respond_outbox _ _, .inr rfl⟩
  | dec src len dst =>
    obtain ⟨-, ⟨-, rfl⟩ | ⟨-, ⟨-, -, rfl⟩ | ⟨-, rfl⟩⟩⟩ := execDec_next.1 h
    · exact ⟨_, State.respond_outbox _ _, .inr (.inl rfl)⟩
    · exact ⟨_, respond_outbox_of_eq (decRun_keeps src len dst s).outbox _, .inl rfl⟩
    · exact ⟨_, State.respond_outbox _ _, .inr (.inr rfl)⟩

end Sys2Proof.Machine
end

section
/-! Key management: what INIT and SETKEY do with each form of their operands (40_key_management.md
R101 to R103), and that the configuration they leave depends on the operands only (R106). -/
namespace Sys2Proof.Machine

/-! ## The key that INIT stores -/

theorem initKey_of_length {klen : Byte} {key : List Byte} (h : key.length = klen.toNat)
    (store : List Byte) : initKey klen key store = key :=
  if_pos h

/-- With no key operand INIT takes the first `klen` bytes of the cleared key store
(40_key_management.md R102). -/
theorem initKey_nil {klen : Byte} (h : legalKeyLength klen = true) :
    initKey klen [] (zeros Config.keyStoreBytes) = List.replicate klen.toNat 0 := by
  have hklen := toNat_of_legal h
  have hnil : ¬ ([] : List Byte).length = klen.toNat := by rw [List.length_nil]; omega
  have hstore : min klen.toNat Config.keyStoreBytes = klen.toNat := by
    rw [Config.keyStoreBytes]; omega
  rw [initKey, if_neg hnil, zeros, List.take_replicate, hstore]

/-! ## INIT -/

section
variable {klen : Byte} {key : List Byte}

theorem execInit_of_fits (hlegal : legalKeyLength klen = true) (hfits : initKeyFits klen key = true)
    (s : State) : execInit klen key s = .next ((s.discardKey.installKey klen
      (initKey klen key (zeros Config.keyStoreBytes))).respond (.ok [])) := by
  rw [execInit_eq, hlegal, hfits, Bool.and_self, if_pos rfl]

theorem execInit_with_key (hlegal : legalKeyLength klen = true) (hlen : key.length = klen.toNat)
    (s : State) :
    execInit klen key s = .next ((s.discardKey.installKey klen key).respond (.ok [])) := by
  rw [execInit_of_fits hlegal (initKeyFits_iff.2 (.inr hlen)), initKey_of_length hlen]

theorem execInit_without_key (hlegal : legalKeyLength klen = true) (s : State) :
    execInit klen [] s = .next ((s.discardKey.installKey klen
      (List.replicate klen.toNat 0)).respond (.ok [])) := by
  rw [execInit_of_fits hlegal (initKeyFits_iff.2 (.inl rfl)), initKey_nil hlegal]

theorem execInit_refused (h : ¬ (legalKeyLength klen = true ∧ initKeyFits klen key = true))
    (s : State) :
    execInit klen key s = .next (s.discardKey.respond (.condition .unsupportedKeyLength)) := by
  rw [execInit_eq, if_neg (mt Bool.and_eq_true_iff.1 h)]

/-! ## SETKEY -/

theorem execSetKey_with_key (hlegal : legalKeyLength klen = true) (hlen : key.length = klen.toNat)
    (s : State) : execSetKey klen key s = .next ((s.installKey klen key).respond (.ok [])) := by
  rw [execSetKey_eq, hlegal, setKeyFits_iff.2 hlen, Bool.and_self, if_pos rfl]

theorem execSetKey_refused (h : ¬ (legalKeyLength klen = true ∧ setKeyFits klen key = true))
    (s : State) :
    execSetKey klen key s = .next (s.respond (.condition .unsupportedKeyLength)) := by
  rw [execSetKey_eq, if_neg (mt Bool.and_eq_true_iff.1 h)]

/-! ## Both commands -/

/-- A key command that succeeds leaves a configuration made of its operands alone
(40_key_management.md R106). -/
theorem exec_keyCommand (hlegal : legalKeyLength klen = true) (hlen : key.length = klen.toNat)
    {i : Instr} (hi : i = .init klen key ∨ i = .setKey klen key) (s : State) :
    ∃ t, exec i s = .next t ∧
      t.key = key ∧ t.klen = klen ∧ t.w = (keyExpand key).w ∧ t.ready = true := by
  obtain rfl | rfl := hi
  · exact ⟨_, execInit_with_key hlegal hlen s, rfl, rfl, rfl, rfl⟩
  · exact ⟨_, execSetKey_with_key hlegal hlen s, rfl, rfl, rfl, rfl⟩

end

/-! ## The statements -/

/-- Settles O14: with a key, without one, and refused; each equation of INIT names the next state. -/
theorem initConstructsOrRefuses : Obligations.InitConstructsOrRefuses := by
  unfold Obligations.InitConstructsOrRefuses
  refine fun klen key s => ⟨fun hklen hlen => ?withKey, fun hklen hnil => ?withoutKey,
    fun hbad => ?refused⟩
  case withKey => exact ⟨_, execInit_with_key (legalKeyLength_iff.2 hklen) hlen s⟩
  case withoutKey =>
    subst hnil
    exact ⟨_, execInit_without_key (legalKeyLength_iff.2 hklen) s⟩
  case refused =>
    refine ⟨_, execInit_refused (fun ⟨hlegal, hfits⟩ => ?_) s⟩
    obtain hklen | ⟨hne, hlen⟩ := hbad
    · exact hklen (legalKeyLength_iff.1 hlegal)
    · exact (initKeyFits_iff.1 hfits).elim hne hlen

/-- Settles O15: the operands fit, or SETKEY answers the condition on the state as it was. -/
theorem setKeyReplacesOrRefuses : Obligations.SetKeyReplacesOrRefuses := by
  unfold Obligations.SetKeyReplacesOrRefuses
  refine fun klen key s => ⟨fun hklen hlen => ?withKey, fun hbad => ?refused⟩
  case withKey => exact ⟨_, execSetKey_with_key (legalKeyLength_iff.2 hklen) hlen s⟩
  case refused =>
    refine execSetKey_refused (fun ⟨hlegal, hfits⟩ => ?_) s
    exact hbad.elim (· (legalKeyLength_iff.1 hlegal)) (· (setKeyFits_iff.1 hfits))

/-- Settles O16: either command, from either state, leaves the configuration of its operands. -/
theorem sameKeyGivesTheSameConfiguration : Obligations.SameKeyGivesTheSameConfiguration := by
  unfold Obligations.SameKeyGivesTheSameConfiguration
  intro klen key s s' i i' hklen hlen hi hi'
  have hlegal := legalKeyLength_iff.2 hklen
  obtain ⟨t, ht, hkey, hkl, hw, hready⟩ := exec_keyCommand hlegal hlen hi s
  obtain ⟨t', ht', hkey', hkl', hw', hready'⟩ := exec_keyCommand hlegal hlen hi' s'
  exact ⟨t, t', ht, ht', hkey.trans hkey'.symm, hkl.trans hkl'.symm, hw.trans hw'.symm,
    hready, hready'⟩

end Sys2Proof.Machine
end

section
/-! Key expansion turn by turn (41_key_expansion.md R120 to R128). `expandTurns key n` is the expander
after `n` turns of its loop: it has written the key and `n` columns, each turn only appends to it, and
each column is the recurrence's, read from what the turns before it wrote. -/
namespace Sys2Proof.Machine

/-! ## The bytes of a column -/

@[simp] theorem columnAt_getElem (w : List Byte) (i j : Nat) (hj : j < 4) :
    (columnAt w i)[j] = w.getD (i + j) 0 := by
  simp [columnAt]

@[simp] theorem rotateColumn_getElem (t : Column) (j : Nat) (hj : j < 4) :
    (rotateColumn t)[j] = t[(j + 1) % 4] := by
  simp [rotateColumn]

@[simp] theorem subColumn_getElem (t : Column) (j : Nat) (hj : j < 4) :
    (subColumn t)[j] = sbox t[j] := by
  simp [subColumn]

@[simp] theorem addRcon_getElem (rcon : Byte) (t : Column) (j : Nat) (hj : j < 4) :
    (addRcon rcon t)[j] = t[j] ^^^ (if j = 0 then rcon else 0) := by
  by_cases h : j = 0 <;> simp [addRcon, h]

@[simp] theorem xorColumn_getElem (t u : Column) (j : Nat) (hj : j < 4) :
    (xorColumn t u)[j] = t[j] ^^^ u[j] := by
  simp [xorColumn]

/-! ## One turn -/

/-- What a turn XORs with the column one key length earlier: the previous column, transformed or plain
(41_key_expansion.md R123, R124, R126). -/
def workingColumn (kl : Nat) (x : Expander) (i : Nat) : Column :=
  let t := columnAt x.w (i - 4)
  if i % kl = 0 then addRcon x.rcon (subColumn (rotateColumn t))
  else if kl = 32 ∧ i % kl = 16 then subColumn t
  else t

theorem workingColumn_getElem (kl : Nat) (x : Expander) (i j : Nat) (hj : j < 4) :
    (workingColumn kl x i)[j] =
      if i % kl = 0 then sbox (x.w.getD (i - 4 + (j + 1) % 4) 0) ^^^ (if j = 0 then x.rcon else 0)
      else if kl = 32 ∧ i % kl = 16 then sbox (x.w.getD (i - 4 + j) 0)
      else x.w.getD (i - 4 + j) 0 := by
  unfold workingColumn
  split_ifs <;> simp [*]

/-- A turn appends one column to the schedule (41_key_expansion.md R127). -/
theorem expandColumn_w (kl : Nat) (x : Expander) (i : Nat) :
    (expandColumn kl x i).w =
      x.w ++ (xorColumn (workingColumn kl x i) (columnAt x.w (i - kl))).toList := by
  unfold expandColumn workingColumn
  dsimp only
  split_ifs <;> rfl

/-- A turn advances the round constant at the first column of a group only
(41_key_expansion.md R124, R125). -/
theorem expandColumn_rcon (kl : Nat) (x : Expander) (i : Nat) :
    (expandColumn kl x i).rcon = if i % kl = 0 then dbl x.rcon else x.rcon := by
  unfold expandColumn
  dsimp only
  split_ifs <;> rfl

/-! ## The run after `n` turns -/

/-- The expander after the first `n` turns of its loop (41_key_expansion.md R121). -/
def expandTurns (key : List Byte) (n : Nat) : Expander :=
  (List.range' key.length n 4).foldl (expandColumn key.length) ⟨key, 0x01⟩

theorem keyExpand_eq_expandTurns (key : List Byte) :
    keyExpand key = expandTurns key ((scheduleLength key.length - key.length) / 4) := rfl

theorem expandTurns_zero (key : List Byte) : expandTurns key 0 = ⟨key, 0x01⟩ := rfl

theorem expandTurns_succ (key : List Byte) (n : Nat) :
    expandTurns key (n + 1) =
      expandColumn key.length (expandTurns key n) (key.length + 4 * n) := by
  simp only [expandTurns, List.range'_concat, List.foldl_append, List.foldl_cons, List.foldl_nil]

theorem expandTurns_w_succ (key : List Byte) (n : Nat) :
    (expandTurns key (n + 1)).w = (expandTurns key n).w ++
      (xorColumn (workingColumn key.length (expandTurns key n) (key.length + 4 * n))
        (columnAt (expandTurns key n).w (key.length + 4 * n - key.length))).toList := by
  rw [expandTurns_succ, expandColumn_w]

theorem expandTurns_length (key : List Byte) (n : Nat) :
    (expandTurns key n).w.length = key.length + 4 * n := by
  induction n with
  | zero => rfl
  | succ n ih =>
    rw [expandTurns_w_succ, List.length_append, ih, Vector.length_toList]
    omega

/-- Later turns keep what earlier ones wrote (41_key_expansion.md R121). -/
theorem expandTurns_prefix (key : List Byte) {n m : Nat} (h : n ≤ m) :
    (expandTurns key n).w <+: (expandTurns key m).w := by
  induction h with
  | refl => exact List.prefix_rfl
  | step _ ih =>
    rw [expandTurns_w_succ]
    exact ih.trans (List.prefix_append _ _)

theorem expandTurns_getD_of_le (key : List Byte) {n m k : Nat} (h : n ≤ m)
    (hk : k < key.length + 4 * n) :
    (expandTurns key m).w.getD k 0 = (expandTurns key n).w.getD k 0 := by
  have hwritten : k < (expandTurns key n).w.length := hk.trans_eq (expandTurns_length key n).symm
  have hpre := expandTurns_prefix key h
  rw [List.getD_eq_getElem _ _ hwritten,
    List.getD_eq_getElem _ _ (hwritten.trans_le hpre.length_le), hpre.getElem hwritten]

/-- The byte that turn `n` writes at position `j` of its column (41_key_expansion.md R127). -/
theorem expandTurns_getD_newColumn (key : List Byte) (n : Nat) {j : Nat} (hj : j < 4) :
    (expandTurns key (n + 1)).w.getD (key.length + 4 * n + j) 0 =
      (expandTurns key n).w.getD (key.length + 4 * n - key.length + j) 0 ^^^
        (workingColumn key.length (expandTurns key n) (key.length + 4 * n))[j] := by
  rw [expandTurns_w_succ, ← expandTurns_length, List.getD_append_right _ _ _ _ (Nat.le_add_right _ _),
    Nat.add_sub_cancel_left, List.getD_eq_getElem _ _ (by simpa using hj), Vector.getElem_toList,
    xorColumn_getElem, columnAt_getElem, BitVec.xor_comm]

/-! ## The three key lengths -/

section
variable {key : List Byte} (hlen : key.length = 16 ∨ key.length = 24 ∨ key.length = 32)
include hlen

/-- The first columns of groups below `i + 4` are those below `i`, and `i` itself when it is one. -/
theorem groups_below_add_four {i : Nat} (hi : i % 4 = 0) (hpos : 0 < i) :
    (i + 4 - 1) / key.length = (i - 1) / key.length + if i % key.length = 0 then 1 else 0 := by
  obtain h | h | h := hlen <;> rw [h] <;> split <;> omega

/-- `RCON` was doubled once for each group begun so far (41_key_expansion.md R125). -/
theorem expandTurns_rcon (n : Nat) :
    (expandTurns key n).rcon = dblPow ((key.length + 4 * n - 1) / key.length) 0x01 := by
  induction n with
  | zero =>
    rw [Nat.mul_zero, Nat.add_zero, Nat.div_eq_of_lt (by omega)]
    rfl
  | succ n ih =>
    rw [expandTurns_succ, expandColumn_rcon, ih, Nat.mul_succ, ← Nat.add_assoc,
      groups_below_add_four hlen (by omega) (by omega)]
    split <;> rfl

theorem expandTurns_rcon_of_groupStart {n : Nat} (h : (key.length + 4 * n) % key.length = 0) :
    (expandTurns key n).rcon = dblPow ((key.length + 4 * n) / key.length - 1) 0x01 := by
  have hcount : (key.length + 4 * n - 1) / key.length = (key.length + 4 * n) / key.length - 1 := by
    obtain hkl | hkl | hkl := hlen <;> rw [hkl] at h ⊢ <;> omega
  rw [expandTurns_rcon hlen, hcount]

end

/-! ## The statements -/

/-- Settles O17: every turn adds four bytes, and the later turns keep the key that the run began with. -/
theorem scheduleHasItsLengthAndBeginsWithTheKey :
    Obligations.ScheduleHasItsLengthAndBeginsWithTheKey := by
  unfold Obligations.ScheduleHasItsLengthAndBeginsWithTheKey
  refine fun key hlen => ⟨?length, fun k hk => ?key⟩
  case length =>
    rw [keyExpand_eq_expandTurns, expandTurns_length, scheduleLength]
    obtain h | h | h := hlen <;> rw [h] <;> rfl
  case key =>
    rw [keyExpand_eq_expandTurns, expandTurns_getD_of_le key (Nat.zero_le _) hk, expandTurns_zero]

/-- Settles O18: the column at `i` is that of turn `(i - kl) / 4`; what that turn read is what the
finished schedule holds there, and the round constant it found is its group's. -/
theorem scheduleSatisfiesItsRecurrence : Obligations.ScheduleSatisfiesItsRecurrence := by
  unfold Obligations.ScheduleSatisfiesItsRecurrence
  intro key hlen kl W i j hi hkl htotal hj
  obtain ⟨n, rfl⟩ : ∃ n, i = key.length + 4 * n := ⟨(i - key.length) / 4, by omega⟩
  have hn : n < (scheduleLength key.length - key.length) / 4 := by unfold scheduleLength; omega
  have hread : ∀ k < key.length + 4 * n, W k = (expandTurns key n).w.getD k 0 := fun k hk =>
    expandTurns_getD_of_le key hn.le hk
  have hnew : W (key.length + 4 * n + j) =
      (expandTurns key (n + 1)).w.getD (key.length + 4 * n + j) 0 :=
    expandTurns_getD_of_le key hn (by omega)
  rw [hnew, expandTurns_getD_newColumn key n hj, workingColumn_getElem,
    hread (_ - key.length + j) (by omega), hread (_ - 4 + (j + 1) % 4) (by omega),
    hread (_ - 4 + j) (by omega)]
  by_cases hstart : (key.length + 4 * n) % key.length = 0
  case pos => rw [expandTurns_rcon_of_groupStart hlen hstart]
  case neg => rw [if_neg hstart, if_neg hstart]

end Sys2Proof.Machine
end

section
/-! The block operations (42_block_ops.md). A row shift through the scratch array has the net effect
of the row shift on blocks, so each round of a sequencer acts on `S` as the round of the block
function; ENCBLK and DECBLK answer what their sequencer leaves in `S`. -/
namespace Sys2Proof.Machine

/-! ## The row shift through the scratch array -/

@[simp] theorem transpose_getElem (s : Block) (k : Nat) (hk : k < 16) :
    (transpose s)[k] = s[k / 4 + 4 * (k % 4)] :=
  Vector.getElem_ofFn hk

@[simp] theorem rotateRows_getElem (offset : List Nat) (t : Block) (k : Nat) (hk : k < 16) :
    (rotateRows offset t)[k] = t[4 * (k / 4) + (k % 4 + offset.getD (k / 4) 0) % 4] :=
  Vector.getElem_ofFn hk

@[simp] theorem shiftRows_getElem (s : Block) (k : Nat) (hk : k < 16) :
    (shiftRows s)[k] = s[k % 4 + 4 * ((k / 4 + k % 4) % 4)] :=
  Vector.getElem_ofFn hk

@[simp] theorem invShiftRows_getElem (s : Block) (k : Nat) (hk : k < 16) :
    (invShiftRows s)[k] = s[k % 4 + 4 * ((k / 4 + 4 - k % 4) % 4)] :=
  Vector.getElem_ofFn hk

/-- Row `k % 4` is rotated left by its offset, in the column-major numbering of `S`. -/
theorem Datapath.rowShift_s_getElem (offset : List Nat) (d : Datapath) (k : Nat) (hk : k < 16) :
    (d.rowShift offset).s[k] = d.s[k % 4 + 4 * ((k / 4 + offset.getD (k % 4) 0) % 4)] := by
  have hrow : (k / 4 + 4 * (k % 4)) / 4 = k % 4 := by omega
  have hcolumn : (k / 4 + 4 * (k % 4)) % 4 = k / 4 := by omega
  have hback (r c : Nat) : (4 * r + c % 4) / 4 + 4 * ((4 * r + c % 4) % 4) = r + 4 * (c % 4) := by
    omega
  simp only [Datapath.rowShift, transpose_getElem, rotateRows_getElem, hrow, hcolumn, hback]

theorem encryptOffsets_getD {r : Nat} (hr : r < 4) : encryptOffsets.getD r 0 = r := by
  revert r; decide

theorem decryptOffsets_getD {r : Nat} (hr : r < 4) : decryptOffsets.getD r 0 = (4 - r) % 4 := by
  revert r; decide

@[simp] theorem Datapath.rowShift_encryptOffsets_s (d : Datapath) :
    (d.rowShift encryptOffsets).s = shiftRows d.s := by
  ext1 k hk
  have hoffset := encryptOffsets_getD (Nat.mod_lt k four_pos)
  simp only [Datapath.rowShift_s_getElem, shiftRows_getElem, hoffset]

/-- Left by `4 - r` is right by `r` (43_round_primitives.md R160, R162). -/
@[simp] theorem Datapath.rowShift_decryptOffsets_s (d : Datapath) :
    (d.rowShift decryptOffsets).s = invShiftRows d.s := by
  ext1 k hk
  have hoffset := decryptOffsets_getD (Nat.mod_lt k four_pos)
  have hright : (k / 4 + (4 - k % 4) % 4) % 4 = (k / 4 + 4 - k % 4) % 4 := by omega
  simp only [Datapath.rowShift_s_getElem, invShiftRows_getElem, hoffset, hright]

/-! ## The sequencers -/

@[simp] theorem Datapath.onS_s (f : Block → Block) (d : Datapath) : (d.onS f).s = f d.s := rfl

@[simp] theorem Datapath.encryptRound_s (w : List Byte) (d : Datapath) (i : Nat) :
    (d.encryptRound w i).s = Machine.encryptRound w d.s i := by
  simp only [Datapath.encryptRound, Machine.encryptRound, Datapath.onS_s,
    Datapath.rowShift_encryptOffsets_s]

@[simp] theorem Datapath.decryptRound_s (w : List Byte) (d : Datapath) (i : Nat) :
    (d.decryptRound w i).s = Machine.decryptRound w d.s i := by
  simp only [Datapath.decryptRound, Machine.decryptRound, Datapath.onS_s,
    Datapath.rowShift_decryptOffsets_s]

/-- Rounds on the datapath are the rounds on the block in `S`. -/
theorem Datapath.foldl_s {round : Datapath → Nat → Datapath} {blockRound : Block → Nat → Block}
    (hround : ∀ d i, (round d i).s = blockRound d.s i) (rounds : List Nat) (d : Datapath) :
    (rounds.foldl round d).s = rounds.foldl blockRound d.s :=
  (List.foldl_hom Datapath.s fun d i => (hround d i).symm).symm

/-- The forward sequencer leaves `EncryptBlock` in `S` (42_block_ops.md R141). -/
theorem Datapath.encrypt_s (w : List Byte) (nr : Nat) (blk : Block) (d : Datapath) :
    (d.encrypt w nr blk).s = encryptBlock w nr blk := by
  simp only [Datapath.encrypt, encryptBlock, Datapath.onS_s, Datapath.rowShift_encryptOffsets_s,
    Datapath.foldl_s (Datapath.encryptRound_s w)]

/-- The inverse sequencer leaves `DecryptBlock` in `S` (42_block_ops.md R144). -/
theorem Datapath.decrypt_s (w : List Byte) (nr : Nat) (blk : Block) (d : Datapath) :
    (d.decrypt w nr blk).s = decryptBlock w nr blk := by
  simp only [Datapath.decrypt, decryptBlock, Datapath.onS_s, Datapath.rowShift_decryptOffsets_s,
    Datapath.foldl_s (Datapath.decryptRound_s w)]

/-! ## ENCBLK and DECBLK -/

theorem exec_encBlk (blk : Block) (s : State) :
    exec (.encBlk blk) s = whenReady s (.next (s.encryptOne blk).respondBlock) := rfl

theorem exec_decBlk (blk : Block) (s : State) :
    exec (.decBlk blk) s = whenReady s (.next (s.decryptOne blk).respondBlock) := rfl

/-- The answer to a block left in `S`: the datapath and the response are all that changes. -/
theorem respondBlock_withDp (s : State) {d : Datapath} {out : Block} (h : d.s = out) :
    State.respondBlock { s with dp := d } =
      { s with dp := d, outbox := s.outbox ++ [0x00 :: out.toList] } := by
  subst h
  rfl

theorem exec_encBlk_of_ready {s : State} (h : s.ready = true) (blk : Block) :
    exec (.encBlk blk) s = .next { s with
      dp := s.dp.encrypt s.w s.nr blk
      outbox := s.outbox ++ [0x00 :: (encryptBlock s.w s.nr blk).toList] } := by
  rw [exec_encBlk, whenReady_of_ready h, State.encryptOne,
    respondBlock_withDp s (Datapath.encrypt_s ..)]

theorem exec_decBlk_of_ready {s : State} (h : s.ready = true) (blk : Block) :
    exec (.decBlk blk) s = .next { s with
      dp := s.dp.decrypt s.w s.nr blk
      outbox := s.outbox ++ [0x00 :: (decryptBlock s.w s.nr blk).toList] } := by
  rw [exec_decBlk, whenReady_of_ready h, State.decryptOne,
    respondBlock_withDp s (Datapath.decrypt_s ..)]

theorem whenReady_eq_notReady {s : State} (h : s.ready = false) (k : Result) :
    whenReady s k = .next { s with outbox := s.outbox ++ [[0x03]] } :=
  whenReady_of_unready h k

/-! ## The statements -/

/-- Settles O31: each round of a sequencer acts on `S` as the round of the block function, and so
does the run of them. -/
theorem sequencersComputeTheBlockFunctions : Obligations.SequencersComputeTheBlockFunctions := by
  unfold Obligations.SequencersComputeTheBlockFunctions
  exact fun w nr blk d => ⟨d.encrypt_s w nr blk, d.decrypt_s w nr blk⟩

/-- Settles O34: behind the `READY` gate stands the forward sequencer, which leaves `EncryptBlock`
in `S`. -/
theorem encBlkAnswersEncryptBlock : Obligations.EncBlkAnswersEncryptBlock := by
  unfold Obligations.EncBlkAnswersEncryptBlock
  refine fun blk s => ⟨fun hready => ?ready, fun hunready => ?unready⟩
  case ready => exact ⟨s.dp.encrypt s.w s.nr blk, exec_encBlk_of_ready hready blk⟩
  case unready => rw [exec_encBlk, whenReady_eq_notReady hunready]

/-- Settles O35: behind the `READY` gate stands the inverse sequencer, which leaves `DecryptBlock`
in `S`. -/
theorem decBlkAnswersDecryptBlock : Obligations.DecBlkAnswersDecryptBlock := by
  unfold Obligations.DecBlkAnswersDecryptBlock
  refine fun blk s => ⟨fun hready => ?ready, fun hunready => ?unready⟩
  case ready => exact ⟨s.dp.decrypt s.w s.nr blk, exec_decBlk_of_ready hready blk⟩
  case unready => rw [exec_decBlk, whenReady_eq_notReady hunready]

end Sys2Proof.Machine
end

section
/-! The round primitives (43_round_primitives.md): the row shifts' index formulas by row and column
(R161, R162), and the doubling, whose laws turn on bit 7 of a byte (R176). -/
namespace Sys2Proof.Machine

/-! ## The byte in row `r` and column `c` -/

theorem rowColumn_mod (r c : Fin 4) : (r.val + 4 * c.val) % 4 = r.val := by omega

theorem rowColumn_div (r c : Fin 4) : (r.val + 4 * c.val) / 4 = c.val := by omega

/-- 43_round_primitives.md R161. -/
theorem shiftRows_rowColumn (s : Block) (r c : Fin 4) :
    (shiftRows s)[r.val + 4 * c.val] = s[r.val + 4 * ((c.val + r.val) % 4)] := by
  simp only [shiftRows_getElem, rowColumn_mod, rowColumn_div]

/-- 43_round_primitives.md R162: right by `r` is left by the complementary offset. -/
theorem invShiftRows_rowColumn (s : Block) (r c : Fin 4) :
    (invShiftRows s)[r.val + 4 * c.val] = s[r.val + 4 * ((c.val + (4 - r.val) % 4) % 4)] := by
  have hleft : (c.val + 4 - r.val) % 4 = (c.val + (4 - r.val) % 4) % 4 := by omega
  simp only [invShiftRows_getElem, rowColumn_mod, rowColumn_div, hleft]

/-! ## Doubling by bit 7 -/

theorem dbl_of_bit7 {a : Byte} (h : a.getLsbD 7 = true) : dbl a = a <<< 1 ^^^ 0x1b := by
  rw [dbl, if_pos h]

theorem dbl_of_not_bit7 {a : Byte} (h : a.getLsbD 7 = false) : dbl a = a <<< 1 := by
  rw [dbl, if_neg (Bool.eq_false_iff.1 h)]
  exact BitVec.xor_zero

/-- Shifted down by seven, a widened byte keeps its bit 7 alone. -/
theorem zeroExtend_ushiftRight_seven (a : Byte) :
    a.zeroExtend 16 >>> 7 = (BitVec.ofBool (a.getLsbD 7)).zeroExtend 16 := by
  ext i hi
  obtain rfl | hpos := Nat.eq_zero_or_pos i
  · simp
  · have hpast : a.getLsbD (7 + i) = false := BitVec.getLsbD_of_ge a _ (by omega)
    simp [hpast, hpos.ne']

/-- The source's mask: the reduction polynomial if bit 7 is set (43_round_primitives.md R176). -/
theorem reductionMask_eq (a : Byte) :
    (0x11b &&& -(a.zeroExtend 16 >>> 7)) = if a.getLsbD 7 then 0x11b else 0 := by
  rw [zeroExtend_ushiftRight_seven]
  cases a.getLsbD 7 <;> decide

/-- Cut back to a byte, the wide shift loses bit 8, as the shift of the byte itself does. -/
theorem setWidth_zeroExtend_shiftLeft_one (a : Byte) :
    (a.zeroExtend 16 <<< 1).setWidth 8 = a <<< 1 := by
  rw [BitVec.setWidth_shiftLeft_of_le (by decide), BitVec.zeroExtend,
    BitVec.setWidth_setWidth_of_le _ (by decide), BitVec.setWidth_eq]

theorem dbl_eq_sourceFormula (a : Byte) :
    dbl a = ((a.zeroExtend 16 <<< 1) ^^^ (0x11b &&& -(a.zeroExtend 16 >>> 7))).truncate 8 := by
  rw [reductionMask_eq, BitVec.truncate, BitVec.setWidth_xor, setWidth_zeroExtend_shiftLeft_one,
    dbl]
  cases a.getLsbD 7 <;> rfl

/-! ## Doubling is linear and one to one -/

/-- The shift is linear, and so is the choice of the polynomial by bit 7. -/
theorem dbl_xor (a b : Byte) : dbl (a ^^^ b) = dbl a ^^^ dbl b := by
  have hreduce (p q : Bool) : (if (p ^^ q) then 0x1b else 0x00 : Byte) =
      (if p then 0x1b else 0x00) ^^^ (if q then 0x1b else 0x00) := by
    revert p q; decide
  simp only [dbl, BitVec.shiftLeft_xor_distrib, BitVec.getLsbD_xor, hreduce]
  ac_rfl

/-- Bit 0 of a double is bit 7 of the byte, which the shift drops and the polynomial brings back. -/
theorem dbl_getLsbD_zero (a : Byte) : (dbl a).getLsbD 0 = a.getLsbD 7 := by
  cases h : a.getLsbD 7
  case false => simp [dbl_of_not_bit7 h]
  case true => simp [dbl_of_bit7 h]

theorem eq_zero_of_dbl_eq_zero {a : Byte} (h : dbl a = 0) : a = 0 := by
  have hbit : a.getLsbD 7 = false := by rw [← dbl_getLsbD_zero, h]; rfl
  have hshift : a <<< 1 = 0 := by rw [← dbl_of_not_bit7 hbit, h]
  have hlow : a.toNat < 2 ^ (8 - 1) :=
    BitVec.toNat_lt_of_msb_false (a.msb_eq_getLsbD_last.trans hbit)
  bv_omega

theorem dbl_injective : Function.Injective dbl := fun a b h =>
  BitVec.xor_eq_zero_iff.1 (eq_zero_of_dbl_eq_zero (by rw [dbl_xor, h, BitVec.xor_self]; rfl))

/-! ## The statements -/

/-- Settles O21: transposing, rotating each row by its offset and transposing back is the row shift
on blocks, whose formula is read at row `r` and column `c`. -/
theorem rowShiftThroughScratchHasItsNetEffect :
    Obligations.RowShiftThroughScratchHasItsNetEffect := by
  unfold Obligations.RowShiftThroughScratchHasItsNetEffect
  exact ⟨fun d => ⟨d.rowShift_encryptOffsets_s, d.rowShift_decryptOffsets_s⟩,
    fun s r c => ⟨shiftRows_rowColumn s r c, invShiftRows_rowColumn s r c⟩⟩

/-- Settles O25: both readings of the reduction are decided by bit 7, and a linear map of the bytes
whose kernel is `0x00` is a bijection. -/
theorem doublingIsTheSourceFormulaAndIsLinear :
    Obligations.DoublingIsTheSourceFormulaAndIsLinear := by
  unfold Obligations.DoublingIsTheSourceFormulaAndIsLinear
  exact ⟨dbl_eq_sourceFormula, dbl_xor, Finite.injective_iff_bijective.1 dbl_injective, by decide⟩

end Sys2Proof.Machine
end

section
/-! `EncryptBuffer` as a function on byte sequences (44_buffer_api.md R202, R204): a string of blocks,
each of which is encrypted from its own sixteen bytes of the message, with zero bytes past its end. -/
namespace Sys2Proof.Machine

/-! ## Strings of blocks -/

/-- The bytes of the blocks `out 0`, ..., `out (n - 1)`, one after the other. -/
def blockString (out : Nat → Block) (n : Nat) : List Byte :=
  (List.range n).flatMap fun b => (out b).toList

theorem blockString_one (out : Nat → Block) : blockString out 1 = (out 0).toList :=
  List.append_nil _

theorem blockString_add (out : Nat → Block) (n k : Nat) :
    blockString out (n + k) = blockString out n ++ blockString (fun b => out (n + b)) k := by
  simp only [blockString, List.range_add, List.flatMap_append, List.flatMap_map]

theorem blockString_succ (out : Nat → Block) (n : Nat) :
    blockString out (n + 1) = blockString out n ++ (out n).toList := by
  rw [blockString_add, blockString_one, Nat.add_zero]

@[simp] theorem blockString_length (out : Nat → Block) (n : Nat) :
    (blockString out n).length = 16 * n := by
  induction n with
  | zero => rfl
  | succ n ih => rw [blockString_succ, List.length_append, ih, Vector.length_toList, Nat.mul_succ]

theorem blockString_congr {out out' : Nat → Block} {n : Nat} (h : ∀ b < n, out b = out' b) :
    blockString out n = blockString out' n := by
  induction n with
  | zero => rfl
  | succ n ih =>
    rw [blockString_succ, blockString_succ, ih fun b hb => h b (by omega), h n (by omega)]

/-- Byte `k` of block `b` stands at `16 b + k`. -/
theorem blockString_getD (out : Nat → Block) {n b k : Nat} (hb : b < n) (hk : k < 16) :
    (blockString out n).getD (16 * b + k) 0 = (out b)[k] := by
  obtain ⟨r, rfl⟩ := Nat.exists_eq_add_of_lt hb
  have hfirst : 16 * b + k < (blockString out (b + 1)).length := by
    rw [blockString_length]; omega
  rw [Nat.add_right_comm, blockString_add, List.getD_append _ _ _ _ hfirst, blockString_succ,
    List.getD_append_right _ _ _ _ (by simp), blockString_length, Nat.add_sub_cancel_left,
    List.getD_eq_getElem _ _ (by simpa using hk), Vector.getElem_toList]

/-! ## The blocks of a message -/

/-- Zero bytes at the end of a string read as what stands past it. -/
theorem getD_append_zeros (l : List Byte) (n k : Nat) : (l ++ zeros n).getD k 0 = l.getD k 0 := by
  by_cases hk : k < l.length
  · exact List.getD_append _ _ _ _ hk
  · have hle : l.length ≤ k := Nat.le_of_not_lt hk
    rw [List.getD_append_right _ _ _ _ hle, List.getD_eq_default _ _ hle, zeros,
      List.getD_eq_getElem?_getD, List.getElem?_getD_replicate_default_eq]

/-- Byte `k` of block `b` is byte `16 b + k` of the message, and zero past its end
(44_buffer_api.md R202, R204). -/
theorem paddedBlock_getElem (m : List Byte) (b k : Nat) (hk : k < 16) :
    (paddedBlock m b)[k] = m.getD (16 * b + k) 0 := by
  rw [paddedBlock, blockOfBytes_getElem _ _ hk, Config.padMode, padTail, getD_append_zeros]
  simp only [List.getD_eq_getElem?_getD, List.getElem?_take_of_lt hk, List.getElem?_drop]

theorem paddedBlock_append_zeros (m : List Byte) (n b : Nat) :
    paddedBlock (m ++ zeros n) b = paddedBlock m b := by
  ext1 k hk
  rw [paddedBlock_getElem _ _ _ hk, paddedBlock_getElem _ _ _ hk, getD_append_zeros]

/-- A block that lies in the first part of a message. -/
theorem paddedBlock_append_left {m : List Byte} {b : Nat} (h : 16 * (b + 1) ≤ m.length)
    (m' : List Byte) : paddedBlock (m ++ m') b = paddedBlock m b := by
  ext1 k hk
  rw [paddedBlock_getElem _ _ _ hk, paddedBlock_getElem _ _ _ hk,
    List.getD_append _ _ _ _ (by omega)]

/-- A block past a first part of `n` whole blocks. -/
theorem paddedBlock_append_right {m : List Byte} {n : Nat} (h : m.length = 16 * n)
    (m' : List Byte) (b : Nat) : paddedBlock (m ++ m') (n + b) = paddedBlock m' b := by
  ext1 k hk
  have hoffset : 16 * (n + b) + k - m.length = 16 * b + k := by omega
  rw [paddedBlock_getElem _ _ _ hk, paddedBlock_getElem _ _ _ hk,
    List.getD_append_right _ _ _ _ (by omega), hoffset]

theorem paddedBlock_toList (blk : Block) : paddedBlock blk.toList 0 = blk := by
  ext1 k hk
  rw [paddedBlock_getElem _ _ _ hk, Nat.mul_zero, Nat.zero_add,
    List.getD_eq_getElem _ _ (by simpa using hk), Vector.getElem_toList]

/-! ## `EncryptBuffer` -/

theorem encryptBuffer_eq (w : List Byte) (nr : Nat) (m : List Byte) :
    encryptBuffer w nr m =
      blockString (fun b => encryptBlock w nr (paddedBlock m b)) ((m.length + 15) / 16) := rfl

@[simp] theorem encryptBuffer_length (w : List Byte) (nr : Nat) (m : List Byte) :
    (encryptBuffer w nr m).length = encryptedLength m.length := by
  rw [encryptBuffer_eq, blockString_length, encryptedLength]

/-- Zero bytes that add no block change nothing (44_buffer_api.md R204). -/
theorem encryptBuffer_append_zeros (w : List Byte) (nr : Nat) {m : List Byte} {n : Nat}
    (h : m.length + n ≤ encryptedLength m.length) :
    encryptBuffer w nr (m ++ zeros n) = encryptBuffer w nr m := by
  have hcount : (m.length + n + 15) / 16 = (m.length + 15) / 16 := by
    rw [encryptedLength] at h; omega
  rw [encryptBuffer_eq, encryptBuffer_eq, List.length_append, zeros_length, hcount]
  exact blockString_congr fun b _ => by rw [paddedBlock_append_zeros]

/-- Whole blocks in front of a message are encrypted on their own (44_buffer_api.md R202). -/
theorem encryptBuffer_append (w : List Byte) (nr : Nat) {m : List Byte} (h : m.length % 16 = 0)
    (m' : List Byte) :
    encryptBuffer w nr (m ++ m') = encryptBuffer w nr m ++ encryptBuffer w nr m' := by
  obtain ⟨n, hn⟩ := Nat.dvd_of_mod_eq_zero h
  have hfront : (m.length + 15) / 16 = n := by omega
  have hcount : ((m ++ m').length + 15) / 16 = n + (m'.length + 15) / 16 := by
    rw [List.length_append]; omega
  rw [encryptBuffer_eq, encryptBuffer_eq, encryptBuffer_eq, hcount, hfront, blockString_add]
  exact congrArg₂ (· ++ ·)
    (blockString_congr fun b hb => by rw [paddedBlock_append_left (by omega)])
    (blockString_congr fun b _ => by rw [paddedBlock_append_right hn])

theorem encryptBuffer_toList (w : List Byte) (nr : Nat) (blk : Block) :
    encryptBuffer w nr blk.toList = (encryptBlock w nr blk).toList := by
  have hcount : (blk.toList.length + 15) / 16 = 1 := by rw [Vector.length_toList]
  rw [encryptBuffer_eq, hcount, blockString_one, paddedBlock_toList]

/-! ## The statements -/

/-- Settles O45: the zero bytes fill up the last block, whose bytes past the end of the message are
zero as it is. -/
theorem partialBlocksAreZeroFilled : Obligations.PartialBlocksAreZeroFilled := by
  unfold Obligations.PartialBlocksAreZeroFilled
  refine fun w nr m => ⟨encryptBuffer_length w nr m, (encryptBuffer_append_zeros w nr ?_).symm⟩
  rw [Nat.add_sub_cancel' (le_encryptedLength _)]

/-- Settles O46: block `b` of the output depends on block `b` of the message alone. -/
theorem blocksOfABufferAreIndependent : Obligations.BlocksOfABufferAreIndependent := by
  unfold Obligations.BlocksOfABufferAreIndependent
  exact fun w nr => ⟨fun m m' h => encryptBuffer_append w nr h m', encryptBuffer_toList w nr⟩

end Sys2Proof.Machine
end

section
/-! The commands ENCLEN, ENC and DEC (44_buffer_api.md R201 to R205). A transfer writes one string of
blocks at `dst`: each turn appends its block to what the turns before wrote, and still reads its input
as it stood before the command, since the ranges are disjoint or start at the same address
(20_memory.md R60). -/
namespace Sys2Proof.Machine

/-! ## Reads and writes of a transfer -/

theorem memWrite_append (m : Memory) (addr : Nat) (v u : List Byte) :
    memWrite m addr (v ++ u) = memWrite (memWrite m addr v) (addr + v.length) u := by
  induction v generalizing m addr with
  | nil => rfl
  | cons b bs ih =>
    rw [List.cons_append, memWrite_cons, memWrite_cons, ih, List.length_cons, Nat.add_right_comm,
      Nat.add_assoc]

/-- A part of what `MemRead` returns is what it returns there. -/
theorem memRead_drop_take (m : Memory) (addr n o k : Nat) :
    ((memRead m addr n).drop o).take k = memRead m (addr + o) (min k (n - o)) := by
  refine List.ext_getElem (by simp) fun i _ _ => ?_
  simp [memRead, Nat.add_assoc]

theorem memRead_congr {m m' : Memory} {addr n : Nat}
    (h : ∀ k < n, m'.read (addr + k) = m.read (addr + k)) :
    memRead m' addr n = memRead m addr n :=
  List.map_congr_left fun k hk => h k (List.mem_range.1 hk)

theorem blockOfBytes_memRead (m : Memory) (addr : Nat) :
    blockOfBytes (memRead m addr 16) = Vector.ofFn fun k : Fin 16 => m.read (addr + k.val) := by
  ext1 k hk
  rw [blockOfBytes_getElem _ _ hk, memRead_getD _ _ _ _ hk, Vector.getElem_ofFn]

/-- After `b` blocks of output, the input from block `b` on stands as before (20_memory.md R60). -/
theorem memRead_of_blocksWritten {src dst len size b n : Nat} {out : Nat → Block} {m m' : Memory}
    (hwf : m.wf = true)
    (halias : src = dst ∨
      ∀ a, ¬ ((src ≤ a ∧ a < src + len) ∧ (dst ≤ a ∧ a < dst + size)))
    (hwritten : m' = memWrite m dst (blockString out b))
    (hin : 16 * b + n ≤ len) (hout : 16 * b ≤ size) :
    memRead m' (src + 16 * b) n = memRead m (src + 16 * b) n := by
  subst hwritten
  refine memRead_congr fun k hk => memWrite_read_outside hwf ?_
  rw [blockString_length]
  rcases halias with rfl | hdisjoint
  case inl => omega
  case inr =>
    have := hdisjoint (src + 16 * b + k)
    omega

/-! ## A loop of block transfers -/

/-- A loop whose turn `b` stores the block `out b` at `dst + 16 b` writes the string of the blocks. -/
theorem foldl_mem_eq_memWrite {turn : State → Nat → State} {out : Nat → Block} {dst : Nat} {s : State}
    (hkeeps : ∀ (u : State) (b : Nat), u.SameButTransfer (turn u b)) (n : Nat)
    (hturn : ∀ u b, b < n → s.SameButTransfer u → u.mem = memWrite s.mem dst (blockString out b) →
      (turn u b).mem = memWrite u.mem (dst + 16 * b) (out b).toList) :
    ((List.range n).foldl turn s).mem = memWrite s.mem dst (blockString out n) := by
  induction n with
  | zero => rfl
  | succ n ih =>
    have hmem := ih fun u b hb => hturn u b (by omega)
    have hsame := foldl_keeps State.SameButTransfer.refl State.SameButTransfer.trans hkeeps
      (List.range n) s
    rw [List.range_succ, List.foldl_append, List.foldl_cons, List.foldl_nil,
      hturn _ n (by omega) hsame hmem, hmem, blockString_succ, memWrite_append, blockString_length]

theorem State.SameButTransfer.nr {s t : State} (h : s.SameButTransfer t) : t.nr = s.nr := by
  rw [State.nr, State.nr, h.klen]

/-! ## ENC's work -/

theorem padTail_of_full {tail : List Byte} (h : tail.length = 16) (mode : Config.PadMode) :
    padTail mode tail = tail := by
  cases mode
  rw [padTail, h]
  exact List.append_nil _

/-- Turn `b` of ENC, be the block whole or partial (44_buffer_api.md R202). -/
def encTurn (src len dst : Nat) (s : State) (b : Nat) : State :=
  encTail src dst b (min 16 (len - 16 * b)) s

theorem encTurn_of_whole {len b : Nat} (h : b < len / 16) (src dst : Nat) (s : State) :
    encTurn src len dst s b = encStep src dst s b := by
  have hmin : min 16 (len - 16 * b) = 16 := by omega
  rw [encTurn, hmin, encTail, padTail_of_full (memRead_length ..), encStep]

/-- ENC's loop and its trailing partial block are one loop over the blocks (44_buffer_api.md R203). -/
theorem encRun_eq_foldl (src len dst : Nat) (s : State) :
    encRun src len dst s = (List.range ((len + 15) / 16)).foldl (encTurn src len dst) s := by
  have hwhole : (List.range (len / 16)).foldl (encTurn src len dst) s =
      (List.range (len / 16)).foldl (encStep src dst) s :=
    List.foldl_ext _ _ _ fun u b hb => encTurn_of_whole (List.mem_range.1 hb) src dst u
  rw [encRun]
  by_cases h : len % 16 = 0
  · have hcount : (len + 15) / 16 = len / 16 := by omega
    rw [if_pos h, hcount, hwhole]
  · have hcount : (len + 15) / 16 = len / 16 + 1 := by omega
    have hmin : min 16 (len - 16 * (len / 16)) = len % 16 := by omega
    rw [if_neg h, hcount, List.range_succ, List.foldl_append, hwhole, List.foldl_cons,
      List.foldl_nil, encTurn, hmin]

theorem encTurn_keeps (src len dst : Nat) (s : State) (b : Nat) :
    s.SameButTransfer (encTurn src len dst s b) :=
  encTail_keeps _ _ _ _ _

theorem encTurn_mem (src len dst : Nat) (s : State) (b : Nat) :
    (encTurn src len dst s b).mem = memWrite s.mem (dst + 16 * b)
      (encryptBlock s.w s.nr (blockOfBytes (padTail Config.padMode
        (memRead s.mem (src + 16 * b) (min 16 (len - 16 * b)))))).toList := by
  rw [encTurn, encTail, State.storeBlock_mem, State.encryptOne_dp, Datapath.encrypt_s,
    State.encryptOne_mem]

/-- ENC writes `EncryptBuffer` of its input at `dst` (44_buffer_api.md R202, R203). -/
theorem encRun_mem {src len dst : Nat} {s : State} (hwf : s.mem.wf = true)
    (halias : src = dst ∨
      ∀ a, ¬ ((src ≤ a ∧ a < src + len) ∧ (dst ≤ a ∧ a < dst + encryptedLength len))) :
    (encRun src len dst s).mem =
      memWrite s.mem dst (encryptBuffer s.w s.nr (memRead s.mem src len)) := by
  rw [encRun_eq_foldl, encryptBuffer_eq, memRead_length]
  refine foldl_mem_eq_memWrite (encTurn_keeps src len dst) _ fun u b hb hsame hmem => ?_
  have hread := memRead_of_blocksWritten (n := min 16 (len - 16 * b)) hwf halias hmem (by omega)
    (by rw [encryptedLength]; omega)
  rw [encTurn_mem, hread, hsame.w, hsame.nr, paddedBlock, memRead_drop_take]

/-! ## DEC's work -/

theorem decStep_mem (src dst : Nat) (s : State) (b : Nat) :
    (decStep src dst s b).mem = memWrite s.mem (dst + 16 * b)
      (decryptBlock s.w s.nr (blockOfBytes (memRead s.mem (src + 16 * b) 16))).toList := by
  rw [decStep, State.storeBlock_mem, State.decryptOne_dp, Datapath.decrypt_s, State.decryptOne_mem]

/-- Block `b` of what DEC writes (44_buffer_api.md R205). -/
def decryptedBlock (s : State) (src b : Nat) : Block :=
  decryptBlock s.w s.nr (blockOfBytes (memRead s.mem (src + 16 * b) 16))

/-- DEC writes the decrypted blocks of its input at `dst` (44_buffer_api.md R205). -/
theorem decRun_mem {src len dst : Nat} {s : State} (hwf : s.mem.wf = true)
    (halias : src = dst ∨ ∀ a, ¬ ((src ≤ a ∧ a < src + len) ∧ (dst ≤ a ∧ a < dst + len))) :
    (decRun src len dst s).mem =
      memWrite s.mem dst (blockString (decryptedBlock s src) (len / 16)) := by
  refine foldl_mem_eq_memWrite (decStep_keeps src dst) _ fun u b hb hsame hmem => ?_
  have hread := memRead_of_blocksWritten (n := 16) hwf halias hmem (by omega) (by omega)
  rw [decStep_mem, hread, hsame.w, hsame.nr, decryptedBlock]

/-! ## The commands -/

theorem exec_enc (src len dst : Nat) (s : State) :
    exec (.enc src len dst) s = execEnc src len dst s := rfl

theorem exec_dec (src len dst : Nat) (s : State) :
    exec (.dec src len dst) s = execDec src len dst s := rfl

/-- The platform accepts two ranges that share no address with a hole (20_memory.md R61). -/
theorem rejects_both_eq_false {s : State} {x y : Span}
    (h : ∀ hole ∈ s.rejected, ∀ a, hole.base ≤ a → a < hole.base + hole.size →
      ¬ (x.base ≤ a ∧ a < x.base + x.size) ∧ ¬ (y.base ≤ a ∧ a < y.base + y.size)) :
    s.rejects x = false ∧ s.rejects y = false := by
  rw [← Bool.not_eq_true, ← Bool.not_eq_true, State.rejects_iff, State.rejects_iff]
  constructor
  · rintro ⟨hole, hhole, a, ⟨hbase, hend⟩, hx⟩
    exact (h hole hhole a hbase hend).1 hx
  · rintro ⟨hole, hhole, a, ⟨hbase, hend⟩, hy⟩
    exact (h hole hhole a hbase hend).2 hy

/-- After a transfer: `OK`, and nothing but `S`, `T`, memory and the outbox differs. -/
theorem State.SameButTransfer.respond_ok {s t : State} (h : s.SameButTransfer t) :
    t.respond (.ok []) =
      { s with dp := t.dp, mem := t.mem, outbox := s.outbox ++ [[0x00]] } := by
  rw [h.eq]
  rfl

/-! ## The statements -/

/-- Settles O38: four bytes hold the rounded length, and `leNat` reads them back. -/
theorem encLenAnswersTheRoundedLength : Obligations.EncLenAnswersTheRoundedLength := by
  unfold Obligations.EncLenAnswersTheRoundedLength
  refine fun n s => ⟨fun hn => ⟨_, _, _, _, execEncLen_next.2 ⟨hn, rfl⟩, ?_⟩, fun hn => if_pos hn⟩
  have hfits : encryptedLength n < 256 ^ 4 := by rw [encryptedLength]; omega
  rw [← leNat_four, ← leBytes_four, leNat_leBytes 4 hfits, encryptedLength]

/-- Settles O39: the gates let ENC through, and it writes `EncryptBuffer` of its input at `dst`. -/
theorem encWritesTheEncryptedBuffer : Obligations.EncWritesTheEncryptedBuffer := by
  unfold Obligations.EncWritesTheEncryptedBuffer
  intro src len dst s hready hwf hlen hsrc hdst halias haccepted
  have hnext := execEnc_next.2 ⟨⟨hlen, admitted_iff.2 ⟨hsrc, hdst, halias⟩⟩,
    .inl ⟨hready, rejects_both_eq_false haccepted, rfl⟩⟩
  have hsize : (encryptBuffer s.w s.nr (memRead s.mem src len)).length = encryptedLength len := by
    rw [encryptBuffer_length, memRead_length]
  rw [exec_enc, hnext, (encRun_keeps src len dst s).respond_ok, encRun_mem hwf halias]
  refine ⟨_, _, rfl, fun k hk => ?_, fun a ha => memWrite_read_outside hwf (hsize ▸ ha)⟩
  rw [memWrite_read hwf, hsize, if_pos (by omega), Nat.add_sub_cancel_left, State.nr_eq]

/-- Settles O40: the gates let DEC through, and it writes the decrypted blocks at `dst`. -/
theorem decWritesTheDecryptedBlocks : Obligations.DecWritesTheDecryptedBlocks := by
  unfold Obligations.DecWritesTheDecryptedBlocks
  intro src len dst s hready hwf hwhole hsrc hdst halias haccepted
  have hnext := execDec_next.2 ⟨both_fit_iff.2 ⟨hsrc, hdst⟩,
    .inr ⟨⟨hwhole, aliasAdmitted_iff.2 halias⟩,
      .inl ⟨hready, rejects_both_eq_false haccepted, rfl⟩⟩⟩
  have hsize : (blockString (decryptedBlock s src) (len / 16)).length = len := by
    rw [blockString_length]; omega
  rw [exec_dec, hnext, (decRun_keeps src len dst s).respond_ok, decRun_mem hwf halias]
  refine ⟨_, _, rfl, fun b k hb => ?_, fun a ha => memWrite_read_outside hwf (hsize.symm ▸ ha)⟩
  rw [memWrite_read hwf, hsize, if_pos (by omega), Nat.add_assoc, Nat.add_sub_cancel_left,
    blockString_getD _ hb k.isLt, decryptedBlock, blockOfBytes_memRead, State.nr_eq]
  rfl

/-- Settles O41: past the address gate, DEC tests the length before anything else. -/
theorem decAnswersInvalidInputForPartialBlocks :
    Obligations.DecAnswersInvalidInputForPartialBlocks := by
  unfold Obligations.DecAnswersInvalidInputForPartialBlocks
  exact fun src len dst s hpartial hsrc hdst =>
    execDec_next.2 ⟨both_fit_iff.2 ⟨hsrc, hdst⟩, .inl ⟨hpartial, rfl⟩⟩

end Sys2Proof.Machine
end

section
/-! The conditions at the command port (60_exceptions.md, sections 1 and 3): the step on a packet that is
no command, and the block and buffer commands while `READY` = 0. -/
namespace Sys2Proof.Machine

/-! ## Packets that are no command -/

/-- Settles O8: the step serves the oldest packet, and the port answers one that is no command
without executing anything. -/
theorem stepAnswersIllegalPacketsWithIllegalCommand :
    Obligations.StepAnswersIllegalPacketsWithIllegalCommand := by
  unfold Obligations.StepAnswersIllegalPacketsWithIllegalCommand
  intro s p rest why hin hillegal
  rw [step_of_event hin, handle, serve_eq_of_illegal hillegal]

/-! ## Commands while `READY` = 0 -/

/-- ENC on admitted ranges stops at the `READY` gate. -/
theorem exec_enc_of_unready {src len dst : Nat} {s : State} (hunready : s.ready = false)
    (hlen : len ≤ Config.maxLen) (hadmitted : Admitted (inputSpan src len) (encOutputSpan dst len)) :
    exec (.enc src len dst) s = .next { s with outbox := s.outbox ++ [[0x03]] } :=
  execEnc_next.2 ⟨⟨hlen, hadmitted⟩, .inr ⟨hunready, rfl⟩⟩

/-- DEC of whole blocks on admitted ranges stops at the `READY` gate. -/
theorem exec_dec_whole_blocks_of_unready {src len dst : Nat} {s : State} (hunready : s.ready = false)
    (hwhole : len % 16 = 0) (hadmitted : Admitted (inputSpan src len) (decOutputSpan dst len)) :
    exec (.dec src len dst) s = .next { s with outbox := s.outbox ++ [[0x03]] } := by
  obtain ⟨hinput, houtput, halias⟩ := hadmitted
  exact execDec_next.2 ⟨⟨hinput, houtput⟩, .inr ⟨⟨hwhole, halias⟩, .inr ⟨hunready, rfl⟩⟩⟩

/-- A response `OK` with a payload is not the `NotReady` response. -/
theorem getLast?_respond_ok_ne_notReady (s : State) (payload : List Byte) :
    (s.respond (.ok payload)).outbox.getLast? ≠ some [0x03] := by
  rw [State.respond_outbox, List.getLast?_concat, Response.encode]
  simp

/-- Settles O42: the `READY` gate answers the block commands and, behind the range checks, ENC and DEC
of whole blocks; DEC of a partial block does not reach it, and ENCLEN has none. -/
theorem unreadyCoreAnswersNotReady : Obligations.UnreadyCoreAnswersNotReady := by
  unfold Obligations.UnreadyCoreAnswersNotReady
  refine fun s hunready => ⟨fun blk => ⟨?encBlk, ?decBlk⟩, fun src len dst hlen hsrc hdst halias => ?enc,
    fun src len dst hsrc hdst halias => ?dec, fun n hn => ?encLen⟩
  case encBlk => exact (encBlkAnswersEncryptBlock blk s).2 hunready
  case decBlk => exact (decBlkAnswersDecryptBlock blk s).2 hunready
  case enc => exact exec_enc_of_unready hunready hlen (admitted_iff.2 ⟨hsrc, hdst, halias⟩)
  case dec =>
    by_cases hwhole : len % 16 = 0
    · rw [if_pos hwhole]
      exact exec_dec_whole_blocks_of_unready hunready hwhole
        (admitted_iff.2 ⟨hsrc, hdst, halias hwhole⟩)
    · rw [if_neg hwhole]
      exact decAnswersInvalidInputForPartialBlocks src len dst s hwhole hsrc hdst
  case encLen => exact ⟨_, execEncLen_next.2 ⟨hn, rfl⟩, getLast?_respond_ok_ne_notReady s _⟩

end Sys2Proof.Machine
end

section
/-! The duties of the host and the platform (70_reset_and_hazards.md, sections 3 and 4): which commands
always complete, and what lets the others through their gates. -/
namespace Sys2Proof.Machine

/-! ## Transfers -/

/-- A transfer behind its three gates completes exactly on admitted ranges that, where the core is
ready to reach them, the platform accepts. -/
theorem gates_complete_iff {s u : State} {input output : Span} :
    (∃ t, admitRanges input output (whenReady s (whenAccepted s input output (.next u))) = .next t) ↔
      Admitted input output ∧
        (s.ready = true → s.rejects input = false ∧ s.rejects output = false) := by
  simp only [admitRanges_next, exists_and_left]
  refine and_congr_right fun _ => ?_
  cases hready : s.ready
  case false => simp [whenReady_of_unready hready, raise_eq]
  case true => simp [whenReady_of_ready hready, whenAccepted_next]

theorem execEnc_completes_iff {src len dst : Nat} {s : State} :
    (∃ t, execEnc src len dst s = .next t) ↔ DutiesKept (.enc src len dst) s := by
  by_cases hlen : len ≤ Config.maxLen
  · rw [execEnc_of_len_le hlen, gates_complete_iff, DutiesKept, Admitted, and_assoc, and_assoc]
    exact (and_iff_right hlen).symm
  · rw [execEnc_of_lengthOverflow (Nat.not_le.1 hlen)]
    exact iff_of_false nofun fun hduties => hlen hduties.1

theorem execDec_completes_iff {src len dst : Nat} {s : State} :
    (∃ t, execDec src len dst s = .next t) ↔ DutiesKept (.dec src len dst) s := by
  by_cases hwhole : len % 16 = 0
  · rw [execDec_of_whole_blocks hwhole, gates_complete_iff, DutiesKept, Admitted, and_assoc, and_assoc]
    simp only [hwhole, forall_const]
  · simp [execDec_next, DutiesKept, hwhole]

/-! ## The statement -/

/-- Settles O52: INIT, SETKEY, ENCBLK and DECBLK have one next state each, ENCLEN has its length bound,
and ENC and DEC complete when their gates let them through. -/
theorem commandsCompleteExactlyWhenDutiesAreKept :
    Obligations.CommandsCompleteExactlyWhenDutiesAreKept := by
  unfold Obligations.CommandsCompleteExactlyWhenDutiesAreKept
  intro i s
  cases i with
  | init klen key => exact iff_of_true ⟨_, execInit_eq klen key s⟩ trivial
  | setKey klen key => exact iff_of_true ⟨_, execSetKey_eq klen key s⟩ trivial
  | encBlk blk => exact iff_of_true ⟨_, execEncBlk_eq blk s⟩ trivial
  | decBlk blk => exact iff_of_true ⟨_, execDecBlk_eq blk s⟩ trivial
  | encLen n =>
    exact ⟨fun ⟨_, hnext⟩ => (execEncLen_next.1 hnext).1, fun hlen => ⟨_, execEncLen_next.2 ⟨hlen, rfl⟩⟩⟩
  | enc src len dst => exact execEnc_completes_iff
  | dec src len dst => exact execDec_completes_iff

end Sys2Proof.Machine
end

section
/-! What a command that completes keeps (10_state.md, section 8; 40_key_management.md R107;
70_reset_and_hazards.md R262): the configuration outside INIT and SETKEY, the readiness of the core, and
the invariant between commands, which every step then keeps. -/
namespace Sys2Proof.Machine

/-! ## The configuration -/

theorem State.encryptOne_keeps (s : State) (blk : Block) : s.SameButTransfer (s.encryptOne blk) := by
  constructor <;> simp

theorem State.decryptOne_keeps (s : State) (blk : Block) : s.SameButTransfer (s.decryptOne blk) := by
  constructor <;> simp

/-- A command that completes is a key command, or it answers after work on `S`, `T` and memory only. -/
theorem exec_next_cases {i : Instr} {s t : State} (h : exec i s = .next t) :
    (∃ klen key, i = .init klen key ∨ i = .setKey klen key) ∨
      ∃ u r, s.SameButTransfer u ∧ t = u.respond r := by
  cases i with
  | init klen key => exact .inl ⟨klen, key, .inl rfl⟩
  | setKey klen key => exact .inl ⟨klen, key, .inr rfl⟩
  | encBlk blk =>
    obtain ⟨-, h⟩ | ⟨-, rfl⟩ := whenReady_next.1 h
    · exact .inr ⟨_, _, s.encryptOne_keeps blk, (Host.Outcome.next.inj h).symm⟩
    · exact .inr ⟨s, _, .refl s, rfl⟩
  | decBlk blk =>
    obtain ⟨-, h⟩ | ⟨-, rfl⟩ := whenReady_next.1 h
    · exact .inr ⟨_, _, s.decryptOne_keeps blk, (Host.Outcome.next.inj h).symm⟩
    · exact .inr ⟨s, _, .refl s, rfl⟩
  | encLen n =>
    obtain ⟨-, rfl⟩ := execEncLen_next.1 h
    exact .inr ⟨s, _, .refl s, rfl⟩
  | enc src len dst =>
    obtain ⟨-, ⟨-, -, rfl⟩ | ⟨-, rfl⟩⟩ := execEnc_next.1 h
    · exact .inr ⟨_, _, encRun_keeps src len dst s, rfl⟩
    · exact .inr ⟨s, _, .refl s, rfl⟩
  | dec src len dst =>
    obtain ⟨-, ⟨-, rfl⟩ | ⟨-, ⟨-, -, rfl⟩ | ⟨-, rfl⟩⟩⟩ := execDec_next.1 h
    · exact .inr ⟨s, _, .refl s, rfl⟩
    · exact .inr ⟨_, _, decRun_keeps src len dst s, rfl⟩
    · exact .inr ⟨s, _, .refl s, rfl⟩

/-- Settles O48: both outcomes of a key command keep the host's and the platform's part, and the other
commands change `S`, `T`, memory and the outbox only. -/
theorem onlyKeyCommandsChangeTheConfiguration :
    Obligations.OnlyKeyCommandsChangeTheConfiguration := by
  unfold Obligations.OnlyKeyCommandsChangeTheConfiguration
  intro i s t h
  obtain ⟨klen, key, hi⟩ | ⟨u, r, hu, rfl⟩ := exec_next_cases h
  case inl =>
    have hkey : ∃ klen key, i = .init klen key ∨ i = .setKey klen key := ⟨klen, key, hi⟩
    obtain rfl | rfl := hi
    · obtain rfl := Host.Outcome.next.inj ((execInit_eq klen key s).symm.trans h)
      split <;> exact ⟨rfl, rfl, .inl hkey⟩
    · obtain rfl := Host.Outcome.next.inj ((execSetKey_eq klen key s).symm.trans h)
      split <;> exact ⟨rfl, rfl, .inl hkey⟩
  case inr => exact ⟨hu.inbox, hu.rejected, .inr ⟨hu.key, hu.klen, hu.w, hu.ready, hu.rcon⟩⟩

/-! ## An unready core -/

/-- A condition is no `OK`: its status byte is not `0x00` (30_encoding.md R78). -/
theorem respond_condition_ne_ok (s : State) (c : Condition) (payload : List Byte) :
    (s.respond (.condition c)).outbox ≠ s.outbox ++ [0x00 :: payload] := by
  rw [State.respond_outbox, Response.encode]
  cases c <;> simp [Condition.code]

/-- While `READY` = 0, what completes without being a key command or ENCLEN answers a condition
(60_exceptions.md R223, R229). -/
theorem exec_of_unready {i : Instr} {s t : State} (hunready : s.ready = false)
    (h : exec i s = .next t) :
    ((∃ klen key, i = .init klen key ∨ i = .setKey klen key) ∨ ∃ n, i = .encLen n) ∨
      ∃ c, t = s.respond (.condition c) := by
  cases i with
  | init klen key => exact .inl (.inl ⟨klen, key, .inl rfl⟩)
  | setKey klen key => exact .inl (.inl ⟨klen, key, .inr rfl⟩)
  | encBlk blk =>
    exact .inr ⟨_, raise_next ((whenReady_of_unready hunready _).symm.trans h)⟩
  | decBlk blk =>
    exact .inr ⟨_, raise_next ((whenReady_of_unready hunready _).symm.trans h)⟩
  | encLen n => exact .inl (.inr ⟨n, rfl⟩)
  | enc src len dst =>
    obtain ⟨-, ⟨hready, -⟩ | ⟨-, ht⟩⟩ := execEnc_next.1 h
    · cases hunready.symm.trans hready
    · exact .inr ⟨_, ht⟩
  | dec src len dst =>
    obtain ⟨-, ⟨-, ht⟩ | ⟨-, ⟨hready, -⟩ | ⟨-, ht⟩⟩⟩ := execDec_next.1 h
    · exact .inr ⟨_, ht⟩
    · cases hunready.symm.trans hready
    · exact .inr ⟨_, ht⟩

/-- Settles O51: what is not served answers a condition, which is no `OK`, and leaves `READY` as it was,
as every command but the key commands does. -/
theorem unreadyCoreServesOnlyKeyCommandsAndEncLen :
    Obligations.UnreadyCoreServesOnlyKeyCommandsAndEncLen := by
  unfold Obligations.UnreadyCoreServesOnlyKeyCommandsAndEncLen
  refine fun i s t payload hunready h => ⟨fun hok => ?ok, fun hready => ?ready⟩
  case ok =>
    obtain hserved | ⟨c, rfl⟩ := exec_of_unready hunready h
    · exact hserved
    · exact absurd hok (respond_condition_ne_ok s c payload)
  case ready =>
    obtain ⟨-, -, hkey | ⟨-, -, -, hsame, -⟩⟩ := onlyKeyCommandsChangeTheConfiguration i s t h
    · exact hkey
    · cases hready.symm.trans (hsame.trans hunready)

/-! ## The invariant's part about the key -/

/-- What the invariant says of `READY`, `KLEN`, `KEY` and `W` (10_state.md R25, R35, R37). -/
def State.KeyInv (s : State) : Prop :=
  (s.ready = true → legalKeyLength s.klen = true ∧ s.key.length = s.klen.toNat ∧
    s.w.length = 16 * (s.klen.toNat / 4 + 7) ∧ s.w = (keyExpand s.key).w) ∧
  (s.ready = false → s.klen = 0 ∧ s.key = zeros 32)

theorem State.Inv.keyInv {s : State} (h : s.Inv) : s.KeyInv := ⟨h.keyed, h.unkeyed⟩

theorem State.KeyInv.congr {s t : State} (h : s.KeyInv) (hkey : t.key = s.key)
    (hklen : t.klen = s.klen) (hw : t.w = s.w) (hready : t.ready = s.ready) : t.KeyInv := by
  unfold State.KeyInv
  rw [hkey, hklen, hw, hready]
  exact h

/-- A core without a key, as reset and a refused INIT leave it. -/
theorem State.keyInv_of_unkeyed {s : State} (hready : s.ready = false) (hklen : s.klen = 0)
    (hkey : s.key = zeros Config.keyStoreBytes) : s.KeyInv :=
  ⟨fun h => (nomatch hready.symm.trans h), fun _ => ⟨hklen, hkey⟩⟩

/-- The schedule of a key of a legal length is complete (41_key_expansion.md R120). -/
theorem keyExpand_length {key : List Byte}
    (hlen : key.length = 16 ∨ key.length = 24 ∨ key.length = 32) :
    (keyExpand key).w.length = 16 * (key.length / 4 + 7) := by
  rw [keyExpand_eq_expandTurns, expandTurns_length, scheduleLength]
  omega

/-- A key of a legal length is installed with its whole schedule. -/
theorem State.keyInv_installKey {klen : Byte} {key : List Byte} (hlegal : legalKeyLength klen = true)
    (hlen : key.length = klen.toNat) (s : State) : (s.installKey klen key).KeyInv := by
  have hschedule := keyExpand_length (hlen ▸ toNat_of_legal hlegal)
  exact ⟨fun _ => ⟨hlegal, hlen, hlen ▸ hschedule, rfl⟩, fun h => nomatch h⟩

theorem exec_keeps_keyInv {i : Instr} {s t : State} (hinv : s.KeyInv) (h : exec i s = .next t) :
    t.KeyInv := by
  obtain ⟨-, -, ⟨klen, key, rfl | rfl⟩ | ⟨hkey, hklen, hw, hready, -⟩⟩ :=
    onlyKeyCommandsChangeTheConfiguration i s t h
  · obtain rfl := Host.Outcome.next.inj ((execInit_eq klen key s).symm.trans h)
    split
    case isTrue hfits =>
      have hlegal := (Bool.and_eq_true_iff.1 hfits).1
      exact (State.keyInv_installKey hlegal (initKey_length hlegal) s.discardKey).congr rfl rfl rfl rfl
    case isFalse => exact State.keyInv_of_unkeyed rfl rfl rfl
  · obtain rfl := Host.Outcome.next.inj ((execSetKey_eq klen key s).symm.trans h)
    split
    case isTrue hfits =>
      obtain ⟨hlegal, hlen⟩ := Bool.and_eq_true_iff.1 hfits
      exact (State.keyInv_installKey hlegal (setKeyFits_iff.1 hlen) s).congr rfl rfl rfl rfl
    case isFalse => exact hinv.congr rfl rfl rfl rfl
  · exact hinv.congr hkey hklen hw hready

/-! ## The invariant's part about memory -/

/-- What a command does to memory is one `MemWrite` inside the address space, of no byte where it makes
no access (20_memory.md R50, R53). -/
theorem exec_mem {i : Instr} {s t : State} (hwf : s.mem.wf = true) (h : exec i s = .next t) :
    ∃ addr v, t.mem = memWrite s.mem addr v ∧ addr + v.length ≤ Config.addrSpace := by
  have hnone (hmem : t.mem = s.mem) :
      ∃ addr v, t.mem = memWrite s.mem addr v ∧ addr + v.length ≤ Config.addrSpace :=
    ⟨0, [], hmem, Nat.zero_le _⟩
  have hother (hi : ∀ src len dst, i ≠ .enc src len dst ∧ i ≠ .dec src len dst) :=
    hnone (onlyBufferCommandsReachMemory i s t [] hi h).1
  cases i with
  | init | setKey | encBlk | decBlk | encLen => exact hother fun _ _ _ => ⟨nofun, nofun⟩
  | enc src len dst =>
    obtain ⟨⟨-, -, hfits, halias⟩, ⟨-, -, rfl⟩ | ⟨-, rfl⟩⟩ := execEnc_next.1 h
    · refine ⟨dst, _, encRun_mem hwf (aliasAdmitted_iff.1 halias), ?_⟩
      rw [encryptBuffer_length, memRead_length]
      exact Span.fits_iff.1 hfits
    · exact hnone rfl
  | dec src len dst =>
    obtain ⟨⟨-, hfits⟩, ⟨-, rfl⟩ | ⟨⟨hwhole, halias⟩, ⟨-, -, rfl⟩ | ⟨-, rfl⟩⟩⟩ := execDec_next.1 h
    · exact hnone rfl
    · refine ⟨dst, _, decRun_mem hwf (aliasAdmitted_iff.1 halias), ?_⟩
      have hsize : 16 * (len / 16) = len := by omega
      rw [blockString_length, hsize]
      exact Span.fits_iff.1 hfits
    · exact hnone rfl

/-! ## The invariant's part about responses -/

/-- The response that a command gives is one of 30_encoding.md R78. -/
theorem exec_response_legal {i : Instr} {s t : State} (h : exec i s = .next t) :
    ∃ r, t.outbox = s.outbox ++ [r] ∧ legalResponse r = true := by
  obtain ⟨r, hr, hkind⟩ := eachCommandGivesOneOfItsResponses i s t h
  refine ⟨r, hr, ?_⟩
  cases i with
  | init | setKey | enc => obtain rfl | rfl := hkind <;> rfl
  | encBlk | decBlk =>
    obtain ⟨out, rfl⟩ | rfl := hkind
    · simp [legalResponse]
    · rfl
  | encLen => obtain ⟨b0, b1, b2, b3, rfl⟩ := hkind; rfl
  | dec => obtain rfl | rfl | rfl := hkind <;> rfl

/-! ## The invariant -/

/-- The invariant again, part by part, after a `MemWrite` and at most one more response. -/
theorem State.Inv.of_parts {s t : State} (h : s.Inv) (hkey : t.KeyInv)
    (hmem : ∃ addr v, t.mem = memWrite s.mem addr v ∧ addr + v.length ≤ Config.addrSpace)
    (hout : t.outbox = s.outbox ∨ ∃ r, t.outbox = s.outbox ++ [r] ∧ legalResponse r = true) :
    t.Inv := by
  obtain ⟨addr, v, hmem, hfits⟩ := hmem
  refine ⟨hkey.1, hkey.2, hmem ▸ memWrite_wf addr v h.memCanonical,
    hmem ▸ memWrite_inSpace hfits h.memInSpace, ?_⟩
  obtain hout | ⟨r, hout, hlegal⟩ := hout
  · exact hout ▸ h.responses
  · rw [hout]
    exact List.forall_mem_append.2 ⟨h.responses, List.forall_mem_singleton.2 hlegal⟩

theorem exec_keeps_inv {i : Instr} {s t : State} (hinv : s.Inv) (h : exec i s = .next t) : t.Inv :=
  hinv.of_parts (exec_keeps_keyInv hinv.keyInv h) (exec_mem hinv.memCanonical h)
    (.inr (exec_response_legal h))

theorem serve_keeps_inv {p : Packet} {s t : State} (hinv : s.Inv) (h : serve p s = .next t) :
    t.Inv := by
  cases hp : decode p with
  | instr i => exact exec_keeps_inv hinv ((serve_of_instr hp s).symm.trans h)
  | illegal why =>
    obtain rfl := raise_next ((serve_of_illegal hp s).symm.trans h)
    exact hinv.of_parts (hinv.keyInv.congr rfl rfl rfl rfl) ⟨0, [], rfl, Nat.zero_le _⟩
      (.inr ⟨_, rfl, rfl⟩)

/-- The range that a command writes lies inside the address space if the command completes
(20_memory.md R61). -/
theorem writtenSpan_fits {i : Instr} {s : State} (h : DutiesKept i s) :
    (writtenSpan (.instr i) s).base + (writtenSpan (.instr i) s).size ≤ Config.addrSpace := by
  cases i with
  | init | setKey | encBlk | decBlk | encLen => exact Nat.zero_le _
  | enc src len dst =>
    obtain ⟨-, -, hfits, -⟩ := h
    have hfits : dst + encryptedLength len ≤ Config.addrSpace := Span.fits_iff.1 hfits
    rw [writtenSpan]
    split
    · exact hfits
    · exact (Nat.le_add_right _ _).trans hfits
  | dec src len dst =>
    obtain ⟨-, hfits, -⟩ := h
    have hfits : dst + len ≤ Config.addrSpace := Span.fits_iff.1 hfits
    rw [writtenSpan]
    split
    · exact hfits
    · exact (Nat.le_add_right _ _).trans hfits

/-- What may stand in memory after a command was cut short lies inside the address space. -/
theorem writtenSpan_fits_of_serve {p : Packet} {s t : State} (h : serve p s = .next t) :
    (writtenSpan (decode p) s).base + (writtenSpan (decode p) s).size ≤ Config.addrSpace := by
  cases hp : decode p with
  | instr i =>
    exact writtenSpan_fits ((commandsCompleteExactlyWhenDutiesAreKept i s).1
      ⟨t, (serve_of_instr hp s).symm.trans h⟩)
  | illegal why => exact Nat.zero_le _

theorem State.keyInv_resetCore (s : State) : s.resetCore.KeyInv :=
  State.keyInv_of_unkeyed rfl rfl rfl

theorem cutByReset_keeps_inv {p : Packet} {fill : List Byte} {s t : State} (hinv : s.Inv)
    (h : cutByReset p fill s = .next t) : t.Inv := by
  obtain ⟨⟨u, hserve⟩, rfl⟩ := cutByReset_next.1 h
  have hfits := writtenSpan_fits_of_serve hserve
  have htake := List.length_take_le (writtenSpan (decode p) s).size fill
  exact hinv.of_parts (State.keyInv_resetCore _) ⟨_, _, rfl, by omega⟩ (.inl rfl)

theorem handle_keeps_inv {e : HostEvent} {s t : State} (hinv : s.Inv) (h : handle e s = .next t) :
    t.Inv := by
  cases e with
  | command p => exact serve_keeps_inv hinv h
  | reset =>
    obtain rfl := Host.Outcome.next.inj h
    exact hinv.of_parts (State.keyInv_resetCore s) ⟨0, [], rfl, Nat.zero_le _⟩ (.inl rfl)
  | commandCutByReset p fill => exact cutByReset_keeps_inv hinv h
  | hostWrite addr bytes =>
    obtain ⟨hfits, rfl⟩ := hostStore_next.1 h
    exact hinv.of_parts (hinv.keyInv.congr rfl rfl rfl rfl) ⟨addr, bytes, rfl, hfits⟩ (.inl rfl)

theorem State.Inv.withInbox {s : State} (h : s.Inv) (events : List HostEvent) :
    State.Inv { s with inbox := events } :=
  ⟨h.keyed, h.unkeyed, h.memCanonical, h.memInSpace, h.responses⟩

/-! ## The statements -/

/-- Settles O54: no key is set, and there is neither a memory cell nor a response. -/
theorem resetStateMeetsTheInvariant : Obligations.ResetStateMeetsTheInvariant := by
  unfold Obligations.ResetStateMeetsTheInvariant
  exact ⟨nofun, fun _ => ⟨rfl, rfl⟩, rfl, rfl, nofun⟩

/-- Settles O55: an idle step keeps the state, and each thing the host does keeps the invariant. -/
theorem everyStepKeepsTheInvariant : Obligations.EveryStepKeepsTheInvariant := by
  unfold Obligations.EveryStepKeepsTheInvariant
  intro s t hinv h
  cases hin : s.inbox with
  | nil =>
    obtain rfl := Host.Outcome.next.inj ((step_of_idle hin).symm.trans h)
    exact hinv
  | cons e rest => exact handle_keeps_inv (hinv.withInbox rest) ((step_of_event hin).symm.trans h)

end Sys2Proof.Machine
end

section
/-! The round primitives undo each other, and so do the block functions made of them
(43_round_primitives.md R163, R174, R178; 42_block_ops.md R146). The inverse column mix undoes the
forward one by the laws of `gmul` (R177): both are products with a circulant matrix, whose product is
the identity (R165 to R168). -/
namespace Sys2Proof.Machine

/-! ## Row shifts -/

theorem invShiftRows_shiftRows (s : Block) : invShiftRows (shiftRows s) = s := by
  ext1 k hk
  rw [invShiftRows_getElem _ _ hk, shiftRows_getElem]
  congr 1
  omega

theorem shiftRows_invShiftRows (s : Block) : shiftRows (invShiftRows s) = s := by
  ext1 k hk
  rw [shiftRows_getElem _ _ hk, invShiftRows_getElem]
  congr 1
  omega

/-! ## Byte substitutions -/

@[simp] theorem subBytes_getElem (s : Block) (k : Nat) (hk : k < 16) : (subBytes s)[k] = sbox s[k] :=
  Vector.getElem_ofFn hk

@[simp] theorem invSubBytes_getElem (s : Block) (k : Nat) (hk : k < 16) :
    (invSubBytes s)[k] = invSbox s[k] :=
  Vector.getElem_ofFn hk

/-- The two tables, compared entry by entry (43_round_primitives.md R174). -/
theorem invSbox_sbox (a : Byte) : invSbox (sbox a) = a := by
  revert a; decide +kernel

theorem sbox_invSbox (a : Byte) : sbox (invSbox a) = a := by
  revert a; decide +kernel

theorem invSubBytes_subBytes (s : Block) : invSubBytes (subBytes s) = s := by
  ext1 k hk
  rw [invSubBytes_getElem _ _ hk, subBytes_getElem, invSbox_sbox]

theorem subBytes_invSubBytes (s : Block) : subBytes (invSubBytes s) = s := by
  ext1 k hk
  rw [subBytes_getElem _ _ hk, invSubBytes_getElem, sbox_invSbox]

/-- No entry is its index or the index's complement (43_round_primitives.md R171). -/
theorem sbox_no_fixed_point : ∀ a : Byte, sbox a ≠ a ∧ sbox a ≠ a ^^^ 0xff := by
  decide +kernel

/-! ## Multiplication is linear in each factor -/

theorem dbl_zero : dbl 0#8 = 0#8 := rfl

theorem dblPow_xor (k : Nat) (a b : Byte) : dblPow k (a ^^^ b) = dblPow k a ^^^ dblPow k b := by
  induction k with
  | zero => rfl
  | succ k ih => rw [dblPow, ih, dbl_xor, dblPow, dblPow]

theorem dblPow_dbl (k : Nat) (a : Byte) : dblPow k (dbl a) = dbl (dblPow k a) := by
  induction k with
  | zero => rfl
  | succ k ih => rw [dblPow, ih, dblPow]

theorem gmulTerm_xor_left (a b c : Byte) (k : Nat) :
    gmulTerm (a ^^^ b) c k = gmulTerm a c k ^^^ gmulTerm b c k := by
  unfold gmulTerm
  split
  · exact dblPow_xor k a b
  · rfl

theorem gmulTerm_xor_right (a b c : Byte) (k : Nat) :
    gmulTerm a (b ^^^ c) k = gmulTerm a b k ^^^ gmulTerm a c k := by
  unfold gmulTerm
  rw [BitVec.getLsbD_xor]
  cases b.getLsbD k <;> cases c.getLsbD k <;> simp

theorem gmulTerm_dbl_left (a b : Byte) (k : Nat) : gmulTerm (dbl a) b k = dbl (gmulTerm a b k) := by
  unfold gmulTerm
  split
  · exact dblPow_dbl k a
  · rfl

theorem gmul_xor_left (a b c : Byte) : gmul (a ^^^ b) c = gmul a c ^^^ gmul b c := by
  simp only [gmul, gmulTerm_xor_left]
  ac_rfl

theorem gmul_xor_right (a b c : Byte) : gmul a (b ^^^ c) = gmul a b ^^^ gmul a c := by
  simp only [gmul, gmulTerm_xor_right]
  ac_rfl

theorem gmul_dbl_left (a b : Byte) : gmul (dbl a) b = dbl (gmul a b) := by
  simp only [gmul, gmulTerm_dbl_left, dbl_xor]

@[simp] theorem gmul_zero_right (a : Byte) : gmul a 0#8 = 0#8 :=
  (gmul_xor_right a 0 0).trans BitVec.xor_self

@[simp] theorem gmul_one_right (a : Byte) : gmul a 1#8 = a := by
  simp [gmul, gmulTerm, dblPow]

@[simp] theorem gmul_one_left (b : Byte) : gmul 1#8 b = b := by
  revert b; decide +kernel

/-! ## Every byte is a sum of doublings of `0x01` -/

theorem dblPow_one_induction {P : Byte → Prop} (one : P 1#8) (double : ∀ a, P a → P (dbl a)) (k : Nat) :
    P (dblPow k 1#8) := by
  induction k with
  | zero => exact one
  | succ k ih => exact double _ ih

/-- Induction over the bytes as sums of powers of `x` (43_round_primitives.md R177). -/
theorem byte_induction {P : Byte → Prop} (zero : P 0#8) (one : P 1#8) (double : ∀ a, P a → P (dbl a))
    (add : ∀ a b, P a → P b → P (a ^^^ b)) (b : Byte) : P b := by
  have hterm (k : Nat) : P (gmulTerm 1 b k) := by
    unfold gmulTerm
    split
    · exact dblPow_one_induction one double k
    · exact zero
  rw [← gmul_one_left b, gmul]
  exact add _ _ (add _ _ (add _ _ (add _ _ (add _ _ (add _ _ (add _ _ (hterm 0) (hterm 1))
    (hterm 2)) (hterm 3)) (hterm 4)) (hterm 5)) (hterm 6)) (hterm 7)

@[simp] theorem gmul_zero_left (b : Byte) : gmul 0#8 b = 0#8 :=
  (gmul_xor_left 0 0 b).trans BitVec.xor_self

theorem gmul_dbl_right (a b : Byte) : gmul a (dbl b) = dbl (gmul a b) := by
  induction a using byte_induction with
  | zero => simp only [gmul_zero_left, dbl_zero]
  | one => simp only [gmul_one_left]
  | double a ih => rw [gmul_dbl_left, ih, gmul_dbl_left]
  | add a c iha ihc => rw [gmul_xor_left, iha, ihc, gmul_xor_left, dbl_xor]

theorem gmul_comm (a b : Byte) : gmul a b = gmul b a := by
  induction a using byte_induction with
  | zero => rw [gmul_zero_left, gmul_zero_right]
  | one => rw [gmul_one_left, gmul_one_right]
  | double a ih => rw [gmul_dbl_left, ih, gmul_dbl_right]
  | add a c iha ihc => rw [gmul_xor_left, iha, ihc, gmul_xor_right]

theorem gmul_assoc (a b c : Byte) : gmul (gmul a b) c = gmul a (gmul b c) := by
  induction a using byte_induction with
  | zero => simp only [gmul_zero_left]
  | one => simp only [gmul_one_left]
  | double a ih => rw [gmul_dbl_left, gmul_dbl_left, ih, gmul_dbl_left]
  | add a d iha ihd => rw [gmul_xor_left, gmul_xor_left, iha, ihd, gmul_xor_left]

/-! ## Products with the matrix entries -/

/-- The product with a power of `x`. -/
theorem gmul_dblPow_one (a : Byte) (k : Nat) : gmul a (dblPow k 1#8) = dblPow k a := by
  induction k with
  | zero => exact gmul_one_right a
  | succ k ih => rw [dblPow, gmul_dbl_right, ih, dblPow]

theorem gmul_02 (a : Byte) : gmul a 0x02 = dbl a := gmul_dblPow_one a 1

theorem gmul_03 (a : Byte) : gmul a 0x03 = dbl a ^^^ a := by
  have hsum : (0x03 : Byte) = dblPow 1 1#8 ^^^ 1#8 := by decide
  rw [hsum, gmul_xor_right, gmul_dblPow_one, gmul_one_right]
  rfl

theorem gmul_09 (a : Byte) : gmul a 0x09 = dblPow 3 a ^^^ a := by
  have hsum : (0x09 : Byte) = dblPow 3 1#8 ^^^ 1#8 := by decide
  rw [hsum, gmul_xor_right, gmul_dblPow_one, gmul_one_right]

theorem gmul_0b (a : Byte) : gmul a 0x0b = dblPow 3 a ^^^ dbl a ^^^ a := by
  have hsum : (0x0b : Byte) = dblPow 3 1#8 ^^^ 0x02 ^^^ 1#8 := by decide
  rw [hsum, gmul_xor_right, gmul_xor_right, gmul_dblPow_one, gmul_02, gmul_one_right]

theorem gmul_0d (a : Byte) : gmul a 0x0d = dblPow 3 a ^^^ dblPow 2 a ^^^ a := by
  have hsum : (0x0d : Byte) = dblPow 3 1#8 ^^^ dblPow 2 1#8 ^^^ 1#8 := by decide
  rw [hsum, gmul_xor_right, gmul_xor_right, gmul_dblPow_one, gmul_dblPow_one, gmul_one_right]

theorem gmul_0e (a : Byte) : gmul a 0x0e = dblPow 3 a ^^^ dblPow 2 a ^^^ dbl a := by
  have hsum : (0x0e : Byte) = dblPow 3 1#8 ^^^ dblPow 2 1#8 ^^^ 0x02 := by decide
  rw [hsum, gmul_xor_right, gmul_xor_right, gmul_dblPow_one, gmul_dblPow_one, gmul_02]

/-! ## Column mixes as products with circulant matrices -/

/-- The position `j` rows below position `k` in its column, wrapping round. -/
def below (k : Fin 16) (j : Nat) : Fin 16 := ⟨4 * (k.val / 4) + (k.val % 4 + j) % 4, by omega⟩

theorem below_zero (k : Fin 16) : below k 0 = k := Fin.ext (by simp only [below]; omega)

theorem below_below (k : Fin 16) (i j : Nat) : below (below k i) j = below k ((i + j) % 4) :=
  Fin.ext (by simp only [below]; omega)

/-- The matrix whose rows are the rotations of its first one. -/
def circulant (e : Vector Byte 4) : Vector (Vector Byte 4) 4 :=
  #v[#v[e[0], e[1], e[2], e[3]], #v[e[3], e[0], e[1], e[2]],
    #v[e[2], e[3], e[0], e[1]], #v[e[1], e[2], e[3], e[0]]]

/-- The forward matrix (43_round_primitives.md R165). -/
theorem mdsMatrix_eq_circulant : mdsMatrix = circulant #v[0x02, 0x03, 0x01#8, 0x01#8] := rfl

/-- The inverse matrix (43_round_primitives.md R166). -/
theorem invMdsMatrix_eq_circulant : invMdsMatrix = circulant #v[0x0e, 0x0b, 0x0d, 0x09] := rfl

/-- One byte of the product of a column with the circulant matrix of `e`, the column read downwards from
that byte's row. -/
def circulantByte (e : Vector Byte 4) (c0 c1 c2 c3 : Byte) : Byte :=
  gmul c0 e[0] ^^^ gmul c1 e[1] ^^^ gmul c2 e[2] ^^^ gmul c3 e[3]

theorem circulantByte_mk (e0 e1 e2 e3 c0 c1 c2 c3 : Byte) :
    circulantByte #v[e0, e1, e2, e3] c0 c1 c2 c3 =
      gmul c0 e0 ^^^ gmul c1 e1 ^^^ gmul c2 e2 ^^^ gmul c3 e3 := rfl

/-- In every row the same four products are added, begun at another column of the matrix. -/
theorem matrixMul_circulant_getElem (e : Vector Byte 4) (s : Block) (k : Fin 16) :
    (matrixMul (circulant e) s)[k] =
      circulantByte e s[below k 0] s[below k 1] s[below k 2] s[below k 3] := by
  obtain hr | hr | hr | hr : k.val % 4 = 0 ∨ k.val % 4 = 1 ∨ k.val % 4 = 2 ∨ k.val % 4 = 3 := by omega
  all_goals simp [matrixMul, circulant, circulantByte, below, hr]
  all_goals ac_rfl

/-- The first row of the product of two circulant matrices. -/
def circulantRow (e f : Vector Byte 4) : Vector Byte 4 :=
  #v[gmul e[0] f[0] ^^^ gmul e[3] f[1] ^^^ gmul e[2] f[2] ^^^ gmul e[1] f[3],
    gmul e[1] f[0] ^^^ gmul e[0] f[1] ^^^ gmul e[3] f[2] ^^^ gmul e[2] f[3],
    gmul e[2] f[0] ^^^ gmul e[1] f[1] ^^^ gmul e[0] f[2] ^^^ gmul e[3] f[3],
    gmul e[3] f[0] ^^^ gmul e[2] f[1] ^^^ gmul e[1] f[2] ^^^ gmul e[0] f[3]]

theorem circulantByte_circulantByte (e f : Vector Byte 4) (c0 c1 c2 c3 : Byte) :
    circulantByte f (circulantByte e c0 c1 c2 c3) (circulantByte e c1 c2 c3 c0)
        (circulantByte e c2 c3 c0 c1) (circulantByte e c3 c0 c1 c2) =
      circulantByte (circulantRow e f) c0 c1 c2 c3 := by
  rw [circulantRow, circulantByte_mk]
  simp only [circulantByte, gmul_xor_left, gmul_xor_right, gmul_assoc]
  ac_rfl

/-- Two circulant matrices whose product is the identity undo each other. -/
theorem matrixMul_matrixMul_circulant {e f : Vector Byte 4}
    (h : circulantRow e f = #v[1#8, 0#8, 0#8, 0#8]) (s : Block) : matrixMul (circulant f) (matrixMul (circulant e) s) = s := by
  refine Vector.ext fun k hk => (matrixMul_circulant_getElem f _ ⟨k, hk⟩).trans ?_
  simp only [matrixMul_circulant_getElem, below_below, Nat.reduceAdd, Nat.reduceMod]
  rw [circulantByte_circulantByte, h, circulantByte_mk, gmul_one_right, gmul_zero_right,
    gmul_zero_right, gmul_zero_right, BitVec.xor_zero, BitVec.xor_zero, BitVec.xor_zero]
  exact congrArg (fun j : Fin 16 => s[j]) (below_zero ⟨k, hk⟩)

/-! ## The column mixes -/

theorem mixColumns_getElem (s : Block) (k : Fin 16) :
    (mixColumns s)[k] = dbl (s[below k 0] ^^^ s[below k 1]) ^^^ s[below k 1] ^^^ s[below k 2] ^^^
      s[below k 3] := by
  simp [mixColumns, below]

theorem circulantByte_mds (c0 c1 c2 c3 : Byte) :
    circulantByte #v[0x02, 0x03, 0x01#8, 0x01#8] c0 c1 c2 c3 =
      dbl (c0 ^^^ c1) ^^^ c1 ^^^ c2 ^^^ c3 := by
  rw [circulantByte_mk, gmul_02, gmul_03, gmul_one_right, gmul_one_right, dbl_xor]
  ac_rfl

theorem mixColumns_eq_matrixMul (s : Block) : mixColumns s = matrixMul mdsMatrix s := by
  refine Vector.ext fun k hk => (mixColumns_getElem s ⟨k, hk⟩).trans ?_
  rw [mdsMatrix_eq_circulant, ← circulantByte_mds]
  exact (matrixMul_circulant_getElem _ s ⟨k, hk⟩).symm

/-- The `t`, `x`, `y`, `z` form (43_round_primitives.md R167) on a column read downwards. -/
def doublingByte (c0 c1 c2 c3 : Byte) : Byte :=
  let t := c0 ^^^ c1 ^^^ c2 ^^^ c3
  dbl (dbl (dbl t)) ^^^ dbl (dbl (c0 ^^^ c2)) ^^^ dbl (c0 ^^^ c1) ^^^ t ^^^ c0

theorem invMixColumnsByDoubling_getElem (s : Block) (k : Fin 16) :
    (invMixColumnsByDoubling s)[k] =
      doublingByte s[below k 0] s[below k 1] s[below k 2] s[below k 3] := by
  simp [invMixColumnsByDoubling, doublingByte, below]

/-- With the entries as sums of powers of `x` and the doublings pushed to the bytes, both sides have the
same terms but for `c0`, which the doubling form adds twice. -/
theorem circulantByte_invMds (c0 c1 c2 c3 : Byte) :
    circulantByte #v[0x0e, 0x0b, 0x0d, 0x09] c0 c1 c2 c3 = doublingByte c0 c1 c2 c3 := by
  have hcancel : c0 ^^^ c1 ^^^ c2 ^^^ c3 ^^^ c0 = c1 ^^^ c2 ^^^ c3 := by
    calc
      _ = (c0 ^^^ c0) ^^^ (c1 ^^^ c2 ^^^ c3) := by ac_rfl
      _ = c1 ^^^ c2 ^^^ c3 := by rw [BitVec.xor_self, BitVec.zero_xor]
  rw [circulantByte_mk, gmul_0e, gmul_0b, gmul_0d, gmul_09, doublingByte, BitVec.xor_assoc _ _ c0,
    hcancel]
  simp only [dblPow, dbl_xor]
  ac_rfl

theorem invMixColumns_mixColumns (s : Block) : invMixColumns (mixColumns s) = s := by
  rw [mixColumns_eq_matrixMul, invMixColumns, mdsMatrix_eq_circulant, invMdsMatrix_eq_circulant]
  exact matrixMul_matrixMul_circulant (by decide) s

theorem mixColumns_invMixColumns (s : Block) : mixColumns (invMixColumns s) = s := by
  rw [mixColumns_eq_matrixMul, invMixColumns, mdsMatrix_eq_circulant, invMdsMatrix_eq_circulant]
  exact matrixMul_matrixMul_circulant (by decide) s

/-! ## The statements -/

/-- Settles O22: shifting row `r` left by `r` and right by `r`, in either order, brings every byte back. -/
theorem rowShiftsUndoEachOther : Obligations.RowShiftsUndoEachOther := by
  unfold Obligations.RowShiftsUndoEachOther
  exact fun s => ⟨invShiftRows_shiftRows s, shiftRows_invShiftRows s⟩

/-- Settles O23: the tables undo each other, so the substitutions do byte by byte; the fixed points are
looked for entry by entry. -/
theorem substitutionsUndoEachOther : Obligations.SubstitutionsUndoEachOther := by
  unfold Obligations.SubstitutionsUndoEachOther
  exact ⟨fun s => ⟨invSubBytes_subBytes s, subBytes_invSubBytes s⟩, sbox_no_fixed_point⟩

/-- Settles O26: `gmul` is linear in each factor and commutes with doubling in each, and every byte is a
sum of doublings of `0x01`. -/
theorem gmulIsFieldMultiplication : Obligations.GmulIsFieldMultiplication := by
  unfold Obligations.GmulIsFieldMultiplication
  refine ⟨fun a => ?_, gmul_comm, gmul_assoc, gmul_xor_right, by decide, by decide⟩
  exact ⟨gmul_zero_right a, gmul_one_right a, gmul_02 a, gmul_03 a, gmul_09 a, gmul_0b a, gmul_0d a,
    gmul_0e a⟩

/-- Settles O27: in both forms byte `j` is `02 c_j XOR 03 c_{j+1} XOR c_{j+2} XOR c_{j+3}`. -/
theorem mixColumnsIsTheMdsMatrixProduct : Obligations.MixColumnsIsTheMdsMatrixProduct := by
  unfold Obligations.MixColumnsIsTheMdsMatrixProduct
  exact ⟨mixColumns_eq_matrixMul, rfl⟩

/-- Settles O28, byte by byte, each from the four bytes of its column. -/
theorem invMixColumnsHasADoublingForm : Obligations.InvMixColumnsHasADoublingForm := by
  unfold Obligations.InvMixColumnsHasADoublingForm
  refine fun s => Vector.ext fun k hk => (invMixColumnsByDoubling_getElem s ⟨k, hk⟩).trans ?_
  rw [invMixColumns, invMdsMatrix_eq_circulant, ← circulantByte_invMds]
  exact (matrixMul_circulant_getElem _ s ⟨k, hk⟩).symm

/-- Settles O29: the product of the two circulant matrices, in either order, is the identity. -/
theorem columnMixesUndoEachOther : Obligations.ColumnMixesUndoEachOther := by
  unfold Obligations.ColumnMixesUndoEachOther
  exact fun s => ⟨invMixColumns_mixColumns s, mixColumns_invMixColumns s⟩

end Sys2Proof.Machine
end

section
/-! The block functions undo each other round by round (42_block_ops.md R141, R144, R146), and so do
ENCBLK and DECBLK at the command port and ENC and DEC on buffers (44_buffer_api.md R206, R208). -/
namespace Sys2Proof.Machine

/-! ## Round-key addition -/

@[simp] theorem addRoundKey_getElem (w : List Byte) (i : Nat) (s : Block) (k : Nat) (hk : k < 16) :
    (addRoundKey w i s)[k] = s[k] ^^^ w.getD (16 * i + k) 0 :=
  Vector.getElem_ofFn hk

theorem addRoundKey_addRoundKey (w : List Byte) (i : Nat) (s : Block) :
    addRoundKey w i (addRoundKey w i s) = s := by
  refine Vector.ext fun k hk => ?_
  rw [addRoundKey_getElem _ _ _ _ hk, addRoundKey_getElem, BitVec.xor_assoc, BitVec.xor_self,
    BitVec.xor_zero]

/-- Settles O30: byte by byte, and the byte of the schedule cancels against itself. -/
theorem addRoundKeyIsItsOwnInverse : Obligations.AddRoundKeyIsItsOwnInverse := by
  unfold Obligations.AddRoundKeyIsItsOwnInverse
  exact fun w i s => ⟨fun k => addRoundKey_getElem w i s k k.isLt, addRoundKey_addRoundKey w i s⟩

/-! ## The rounds -/

theorem decryptRound_encryptRound (w : List Byte) (s : Block) (i : Nat) :
    decryptRound w (encryptRound w s i) i = s := by
  rw [decryptRound, encryptRound, addRoundKey_addRoundKey, invMixColumns_mixColumns,
    invShiftRows_shiftRows, invSubBytes_subBytes]

theorem encryptRound_decryptRound (w : List Byte) (s : Block) (i : Nat) :
    encryptRound w (decryptRound w s i) i = s := by
  rw [encryptRound, decryptRound, subBytes_invSubBytes, shiftRows_invShiftRows,
    mixColumns_invMixColumns, addRoundKey_addRoundKey]

/-- Turns are undone one by one, the last one first. -/
theorem foldl_reverse_foldl {α β : Type} {f g : α → β → α} (h : ∀ x i, g (f x i) i = x) (l : List β)
    (x : α) : l.reverse.foldl g (l.foldl f x) = x := by
  induction l generalizing x with
  | nil => rfl
  | cons i l ih =>
    rw [List.foldl_cons, List.reverse_cons, List.foldl_append, ih, List.foldl_cons, List.foldl_nil, h]

theorem foldl_foldl_reverse {α β : Type} {f g : α → β → α} (h : ∀ x i, f (g x i) i = x) (l : List β)
    (x : α) : l.foldl f (l.reverse.foldl g x) = x := by
  simpa only [List.reverse_reverse] using foldl_reverse_foldl h l.reverse x

/-! ## The block functions -/

theorem decryptBlock_encryptBlock (w : List Byte) (nr : Nat) (blk : Block) :
    decryptBlock w nr (encryptBlock w nr blk) = blk := by
  rw [decryptBlock, encryptBlock, addRoundKey_addRoundKey, invShiftRows_shiftRows,
    invSubBytes_subBytes, foldl_reverse_foldl (decryptRound_encryptRound w), addRoundKey_addRoundKey]

theorem encryptBlock_decryptBlock (w : List Byte) (nr : Nat) (blk : Block) :
    encryptBlock w nr (decryptBlock w nr blk) = blk := by
  rw [encryptBlock, decryptBlock, addRoundKey_addRoundKey,
    foldl_foldl_reverse (encryptRound_decryptRound w), subBytes_invSubBytes, shiftRows_invShiftRows,
    addRoundKey_addRoundKey]

/-- Settles O32: each step of one function is undone by a step of the other, in reverse order. -/
theorem blockFunctionsUndoEachOther : Obligations.BlockFunctionsUndoEachOther := by
  unfold Obligations.BlockFunctionsUndoEachOther
  intro w nr
  have hdec : Function.LeftInverse (decryptBlock w nr) (encryptBlock w nr) :=
    decryptBlock_encryptBlock w nr
  have henc : Function.LeftInverse (encryptBlock w nr) (decryptBlock w nr) :=
    encryptBlock_decryptBlock w nr
  exact ⟨hdec, henc, ⟨hdec.injective, henc.surjective⟩, ⟨henc.injective, hdec.surjective⟩⟩

/-! ## The commands -/

/-- Settles O36: ENCBLK leaves `READY`, `KLEN` and `W` as they were, so DECBLK runs the inverse function
of the same schedule. -/
theorem decBlkUndoesEncBlk : Obligations.DecBlkUndoesEncBlk := by
  unfold Obligations.DecBlkUndoesEncBlk
  intro blk s hready
  obtain ⟨d, henc⟩ := (encBlkAnswersEncryptBlock blk s).1 hready
  obtain ⟨d', hdec⟩ := (decBlkAnswersDecryptBlock _ { s with
    dp := d, outbox := s.outbox ++ [0x00 :: Vector.toList _] }).1 hready
  exact ⟨_, _, _, henc, rfl, hdec, by rw [decryptBlock_encryptBlock]⟩

/-- A block of a string of blocks is read back from where it was written. -/
theorem memRead_block_of_memWrite {m : Memory} (hwf : m.wf = true) (addr : Nat) (out : Nat → Block)
    {n b : Nat} (hb : b < n) :
    blockOfBytes (memRead (memWrite m addr (blockString out n)) (addr + 16 * b) 16) = out b := by
  ext1 k hk
  rw [blockOfBytes_getElem _ _ hk, memRead_getD _ _ _ _ hk, memWrite_read hwf, blockString_length,
    if_pos (by omega), Nat.add_assoc, Nat.add_sub_cancel_left, blockString_getD out hb hk]

theorem rejects_of_rejected_nil {s : State} (h : s.rejected = []) (x : Span) : s.rejects x = false := by
  rw [State.rejects, h]
  rfl

/-- ENC on a ready core, for admitted ranges and a platform that accepts everything. -/
theorem exec_enc_of_admitted {src len dst : Nat} {s : State} (hready : s.ready = true)
    (hrejected : s.rejected = []) (hlen : len ≤ Config.maxLen)
    (hadmitted : Admitted (inputSpan src len) (encOutputSpan dst len)) :
    exec (.enc src len dst) s = .next ((encRun src len dst s).respond (.ok [])) :=
  execEnc_next.2 ⟨⟨hlen, hadmitted⟩, .inl ⟨hready,
    ⟨rejects_of_rejected_nil hrejected _, rejects_of_rejected_nil hrejected _⟩, rfl⟩⟩

/-- DEC of whole blocks on such a core. -/
theorem exec_dec_of_admitted {src len dst : Nat} {s : State} (hready : s.ready = true)
    (hrejected : s.rejected = []) (hwhole : len % 16 = 0)
    (hadmitted : Admitted (inputSpan src len) (decOutputSpan dst len)) :
    exec (.dec src len dst) s = .next ((decRun src len dst s).respond (.ok [])) := by
  obtain ⟨hinput, houtput, halias⟩ := hadmitted
  exact execDec_next.2 ⟨⟨hinput, houtput⟩, .inr ⟨⟨hwhole, halias⟩, .inl ⟨hready,
    ⟨rejects_of_rejected_nil hrejected _, rejects_of_rejected_nil hrejected _⟩, rfl⟩⟩⟩

/-- The blocks of a message, one after the other, are the message with zero bytes behind it. -/
theorem blockString_paddedBlock_getD (m : List Byte) {n k : Nat} (hk : k < 16 * n) :
    (blockString (paddedBlock m) n).getD k 0 = m.getD k 0 := by
  have hsplit : 16 * (k / 16) + k % 16 = k := Nat.div_add_mod k 16
  have hblock := blockString_getD (paddedBlock m) (Nat.div_lt_of_lt_mul hk) (Nat.mod_lt k (by decide))
  rwa [paddedBlock_getElem, hsplit] at hblock

/-- DEC of what ENC wrote writes the blocks of the message (44_buffer_api.md R206, R208). -/
theorem decRun_mem_of_encrypted {a b c len : Nat} {s t : State} (hwf : s.mem.wf = true)
    (hw : t.w = s.w) (hnr : t.nr = s.nr)
    (hmem : t.mem = memWrite s.mem b (encryptBuffer s.w s.nr (memRead s.mem a len)))
    (halias : b = c ∨ ∀ x, ¬ ((b ≤ x ∧ x < b + encryptedLength len) ∧
      (c ≤ x ∧ x < c + encryptedLength len))) :
    (decRun b (encryptedLength len) c t).mem =
      memWrite t.mem c (blockString (paddedBlock (memRead s.mem a len)) ((len + 15) / 16)) := by
  have hblock : ∀ i < (len + 15) / 16,
      decryptedBlock t b i = paddedBlock (memRead s.mem a len) i := fun i hi => by
    rw [decryptedBlock, hmem, encryptBuffer_eq, memRead_length, memRead_block_of_memWrite hwf _ _ hi,
      hw, hnr, decryptBlock_encryptBlock]
  rw [decRun_mem (hmem ▸ memWrite_wf _ _ hwf) halias, encryptedLength_div, blockString_congr hblock]

/-- Settles O47: what stands at `c` in the end is the message as DEC read it back, with the zero bytes
that ENC filled its last block up with. -/
theorem decOfEncRestoresTheBufferWithZeroPadding :
    Obligations.DecOfEncRestoresTheBufferWithZeroPadding := by
  unfold Obligations.DecOfEncRestoresTheBufferWithZeroPadding
  intro a b c len s hready hwf hrejected hlen ha hb hc hab hbc
  have hkeeps := encRun_keeps a len b s
  have hmem := decRun_mem_of_encrypted (t := (encRun a len b s).respond (.ok [])) hwf hkeeps.w hkeeps.nr
    (encRun_mem hwf hab) hbc
  have hread (k : Nat) (hk : k < encryptedLength len) :
      (decRun b (encryptedLength len) c ((encRun a len b s).respond (.ok []))).mem.read (c + k) =
        (memRead s.mem a len).getD k 0 := by
    rw [encryptedLength] at hk
    rw [hmem, State.respond_mem, memWrite_read (encRun_wf a len b hwf), blockString_length,
      if_pos (by omega), Nat.add_sub_cancel_left, blockString_paddedBlock_getD _ hk]
  refine ⟨_, _, exec_enc_of_admitted hready hrejected hlen (admitted_iff.2 ⟨ha, hb, hab⟩),
    exec_dec_of_admitted (hkeeps.ready.trans hready) (hkeeps.rejected.trans hrejected)
      (encryptedLength_mod len) (admitted_iff.2 ⟨hb, hc, hbc⟩),
    fun k hk => ?message, fun k hle hk => ?padding⟩
  case message => exact (hread k (hk.trans_le (le_encryptedLength len))).trans (memRead_getD _ _ _ _ hk)
  case padding => exact (hread k hk).trans (List.getD_eq_default _ _ ((memRead_length ..).trans_le hle))

end Sys2Proof.Machine
end

section
/-! What the host's other events do (70_reset_and_hazards.md R260, R261; 20_memory.md R64): an idle step, a host
write, a reset of the idle core, and a reset that cuts a command short. -/
namespace Sys2Proof.Machine

/-- Settles O9: the write is one `MemWrite`, which changes exactly its bytes. -/
theorem idleStepsAndHostWrites : Obligations.IdleStepsAndHostWrites := by
  unfold Obligations.IdleStepsAndHostWrites
  refine ⟨fun s => step_of_idle, fun s addr bytes rest hin hfits hwf => ?_⟩
  refine ⟨memWrite s.mem addr bytes, (step_of_event hin).trans (hostStore_next.2 ⟨hfits, rfl⟩),
    fun k hk => ?written, fun a ha => memWrite_read_outside hwf ha⟩
  case written => rw [memWrite_read hwf, if_pos (by omega), Nat.add_sub_cancel_left]

/-- Settles O11: the three reset values are given as such. -/
theorem resetStateIsUnkeyed : Obligations.ResetStateIsUnkeyed := by
  unfold Obligations.ResetStateIsUnkeyed
  exact ⟨rfl, rfl, rfl⟩

/-- A reset leaves `READY`, `KLEN` and the key store at their reset values, some values in the rest of
the core, and what is the host's as it was (70_reset_and_hazards.md R260; 10_state.md R37, R38). -/
theorem State.resetCore_eq (s : State) :
    s.resetCore = { s with
      ready := false, klen := 0, key := List.replicate 32 0,
      dp := Datapath.reset, w := State.reset.w, rcon := State.reset.rcon } := rfl

/-- Settles O12: the step resets the core and takes the event from the inbox. -/
theorem resetEventReturnsTheCoreToResetValues :
    Obligations.ResetEventReturnsTheCoreToResetValues := by
  unfold Obligations.ResetEventReturnsTheCoreToResetValues
  intro s rest hin
  exact ⟨_, _, _, (step_of_event hin).trans (congrArg _ (State.resetCore_eq _))⟩

/-! ## A command cut short -/

/-- The memory that a command cut short leaves (70_reset_and_hazards.md R261). -/
def cutMemory (i : Instr) (fill : List Byte) (s : State) : Memory :=
  memWrite s.mem (writtenSpan (.instr i) s).base (fill.take (writtenSpan (.instr i) s).size)

/-- The platform's and the host's duties do not depend on what the host does next. -/
theorem DutiesKept.withInbox {i : Instr} {s : State} (h : DutiesKept i s) (events : List HostEvent) :
    DutiesKept i { s with inbox := events } := by
  cases i <;> exact h

/-- A command whose duties are kept, cut short: the core is reset, and memory is the one above. -/
theorem step_of_commandCutByReset {s : State} {p : Packet} {fill : List Byte} {rest : List HostEvent}
    {i : Instr} (hin : s.inbox = .commandCutByReset p fill :: rest) (hp : decode p = .instr i)
    (hduties : DutiesKept i s) :
    step s = .next (State.resetCore { s with inbox := rest, mem := cutMemory i fill s }) := by
  obtain ⟨u, hu⟩ := (commandsCompleteExactlyWhenDutiesAreKept i _).2 (hduties.withInbox rest)
  refine (step_of_event hin).trans (cutByReset_next.2 ⟨⟨u, (serve_of_instr hp _).trans hu⟩, ?_⟩)
  rw [hp]
  cases i <;> rfl

/-- Outside the output range memory is as it was (70_reset_and_hazards.md R261). -/
theorem cutMemory_read_outside {i : Instr} {s : State} (hwf : s.mem.wf = true) {base size a : Nat}
    (hspan : writtenSpan (.instr i) s = ⟨base, size⟩) (fill : List Byte)
    (ha : ¬ (base ≤ a ∧ a < base + size)) : (cutMemory i fill s).read a = s.mem.read a := by
  have htake := List.length_take_le size fill
  rw [cutMemory, hspan]
  exact memWrite_read_outside hwf (by dsimp only; omega)

/-- Inside the output range stand the bytes that the event gives. -/
theorem cutMemory_read_inside {i : Instr} {s : State} (hwf : s.mem.wf = true) {base size k : Nat}
    (hspan : writtenSpan (.instr i) s = ⟨base, size⟩) {fill : List Byte} (hk : k < size)
    (hfill : k < fill.length) : (cutMemory i fill s).read (base + k) = fill.getD k 0 := by
  have hin : base ≤ base + k ∧ base + k < base + (fill.take size).length := by
    rw [List.length_take]; omega
  rw [cutMemory, hspan]
  dsimp only
  rw [memWrite_read hwf, if_pos hin, Nat.add_sub_cancel_left]
  simp only [List.getD_eq_getElem?_getD, List.getElem?_take_of_lt hk]

theorem cutMemory_of_empty {i : Instr} {s : State} (h : (writtenSpan (.instr i) s).size = 0)
    (fill : List Byte) : cutMemory i fill s = s.mem := by
  rw [cutMemory, h]
  rfl

/-! ## The range that a command has begun to write -/

theorem writtenSpan_enc_of_ready {s : State} (h : s.ready = true) (src len dst : Nat) :
    writtenSpan (.instr (.enc src len dst)) s = encOutputSpan dst len := if_pos h

theorem writtenSpan_enc_of_unready {s : State} (h : s.ready = false) (src len dst : Nat) :
    writtenSpan (.instr (.enc src len dst)) s = ⟨dst, 0⟩ := if_neg (Bool.eq_false_iff.1 h)

theorem writtenSpan_dec_of_running {s : State} {len : Nat} (h : s.ready = true) (hwhole : len % 16 = 0)
    (src dst : Nat) : writtenSpan (.instr (.dec src len dst)) s = decOutputSpan dst len := by
  simp [writtenSpan, h, hwhole]

theorem writtenSpan_dec_of_condition {s : State} {len : Nat} (h : s.ready = false ∨ len % 16 ≠ 0)
    (src dst : Nat) : writtenSpan (.instr (.dec src len dst)) s = ⟨dst, 0⟩ := by
  obtain h | h := h <;> simp [writtenSpan, h]

/-- Settles O13: the event's bytes go into the range that the command has begun to write, which is empty
unless ENC or DEC has passed its checks. -/
theorem resetDuringACommandGivesNoResponse : Obligations.ResetDuringACommandGivesNoResponse := by
  unfold Obligations.ResetDuringACommandGivesNoResponse
  intro s p fill rest i hin hp hduties hwf
  refine ⟨_, _, _, cutMemory i fill s, (step_of_commandCutByReset hin hp hduties).trans
    (congrArg _ (State.resetCore_eq _)), ?_⟩
  cases i with
  | init | setKey | encBlk | decBlk | encLen => exact cutMemory_of_empty rfl fill
  | enc src len dst =>
    cases hready : s.ready
    case false =>
      have hnone := cutMemory_of_empty
        (congrArg Span.size (writtenSpan_enc_of_unready hready src len dst)) fill
      exact ⟨fun a _ => by rw [hnone], fun _ => hnone, nofun⟩
    case true =>
      have hspan := writtenSpan_enc_of_ready hready src len dst
      exact ⟨fun a => cutMemory_read_outside hwf hspan fill, nofun,
        fun _ k => cutMemory_read_inside hwf hspan⟩
  | dec src len dst =>
    by_cases hrun : s.ready = true ∧ len % 16 = 0
    case pos =>
      have hspan := writtenSpan_dec_of_running hrun.1 hrun.2 src dst
      refine ⟨fun a => cutMemory_read_outside hwf hspan fill, ?_,
        fun _ _ k => cutMemory_read_inside hwf hspan⟩
      rintro (h | h)
      · cases h.symm.trans hrun.1
      · exact absurd hrun.2 h
    case neg =>
      have hcond : s.ready = false ∨ len % 16 ≠ 0 := by
        rwa [not_and_or, Bool.not_eq_true] at hrun
      have hnone := cutMemory_of_empty
        (congrArg Span.size (writtenSpan_dec_of_condition hcond src dst)) fill
      exact ⟨fun a _ => by rw [hnone], fun _ => hnone, fun h h' => absurd ⟨h, h'⟩ hrun⟩

end Sys2Proof.Machine
end

section
/-! The printed values of the spec (30_encoding.md R85; 41_key_expansion.md R125; 42_block_ops.md R148;
43_round_primitives.md R175; 44_buffer_api.md R200; 95_test_vectors.md). -/
namespace Sys2Proof.Machine

/-- Settles O1: each packet is read and written on its own. -/
theorem workedEncodingsAreAsPrinted : Obligations.WorkedEncodingsAreAsPrinted := by
  unfold Obligations.WorkedEncodingsAreAsPrinted
  exact ⟨by decide, rfl, rfl⟩

/-- Settles O19: the round constant has been doubled once for each group of the schedule, that is 10, 8
or 7 times. -/
theorem roundConstantsAreThePrintedSequence : Obligations.RoundConstantsAreThePrintedSequence := by
  unfold Obligations.RoundConstantsAreThePrintedSequence
  refine ⟨by decide, fun key => ⟨fun h => ?_, fun h => ?_, fun h => ?_⟩⟩
  · rw [keyExpand_eq_expandTurns, expandTurns_rcon (.inl h), h]
    decide
  · rw [keyExpand_eq_expandTurns, expandTurns_rcon (.inr (.inl h)), h]
    decide
  · rw [keyExpand_eq_expandTurns, expandTurns_rcon (.inr (.inr h)), h]
    decide

/-- Settles O20: each of the three schedules is run. -/
theorem exampleSchedulesAreAsPrinted : Obligations.ExampleSchedulesAreAsPrinted := by
  unfold Obligations.ExampleSchedulesAreAsPrinted
  decide +kernel

/-- The affine map of the S-box read backwards (43_round_primitives.md R175). -/
def invSboxAffine (c : Byte) : Byte := c.rotateLeft 1 ^^^ c.rotateLeft 3 ^^^ c.rotateLeft 6 ^^^ 0x05

theorem sboxAffine_invSboxAffine (c : Byte) : sboxAffine (invSboxAffine c) = c := by
  revert c; decide +kernel

/-- The byte that the table maps affinely is the inverse of its index, entry by entry. -/
theorem gmul_invSboxAffine_sbox : ∀ a : Byte, a ≠ 0x00 → gmul a (invSboxAffine (sbox a)) = 0x01 := by
  decide +kernel

/-- Settles O24: undoing the affine map on an entry of the table gives the inverse of its index. -/
theorem sboxIsTheAffineMapOfTheFieldInverse : Obligations.SboxIsTheAffineMapOfTheFieldInverse := by
  unfold Obligations.SboxIsTheAffineMapOfTheFieldInverse
  refine fun a => ⟨invSboxAffine (sbox a), ?_, gmul_invSboxAffine_sbox a,
    (sboxAffine_invSboxAffine (sbox a)).symm⟩
  rintro rfl
  decide

/-- Settles O33: the encryptions are run, and the decryptions undo them (42_block_ops.md R146). -/
theorem knownAnswersForTheThreeKeyLengths : Obligations.KnownAnswersForTheThreeKeyLengths := by
  unfold Obligations.KnownAnswersForTheThreeKeyLengths
  intro w plain c16 c24 c32
  have h16 : encryptBlock (w 16) 10 plain = c16 := by decide +kernel
  have h24 : encryptBlock (w 24) 12 plain = c24 := by decide +kernel
  have h32 : encryptBlock (w 32) 14 plain = c32 := by decide +kernel
  exact ⟨h16, h16 ▸ decryptBlock_encryptBlock _ _ _, h24, h24 ▸ decryptBlock_encryptBlock _ _ _,
    h32, h32 ▸ decryptBlock_encryptBlock _ _ _⟩

/-- Settles O37: the definition in closed form, and its values. -/
theorem encryptedLengthRoundsUpTo16 : Obligations.EncryptedLengthRoundsUpTo16 := by
  unfold Obligations.EncryptedLengthRoundsUpTo16
  refine ⟨fun n => ⟨?_, encryptedLength_mod n, le_encryptedLength n, ?_⟩, by decide⟩
  · rw [encryptedLength]
    split <;> omega
  · rw [encryptedLength]
    omega

end Sys2Proof.Machine
end
